-- ==== Sys2Proof/Word.lean ====
section
/-! DEFINITION. The two widths of the block: Word32 (spec/00_scope.md R17: "unsigned 32-bit integer with
defined wraparound arithmetic") and the byte of the serialised form (20_memory.md R65). -/
namespace Sys2Proof

/-- Word32 (R17): every register, buffer word and command word. -/
abbrev Word := BitVec 32

/-- One byte of a serialised word (R65). -/
abbrev Byte := BitVec 8

end Sys2Proof
end

