-- ==== Sys2Proof/Syntax.lean ====
section
/-! DEFINITION. The commands of spec/opcode_table.json (30_encoding.md R82), one constructor per row. The only operand
bit of any command is GENIV's reseed flag (R81). -/
namespace Sys2Proof

/-- A command (R82). -/
inductive Instr where
  /-- ADD, R106. -/
  | add
  /-- SUB, R107. -/
  | sub
  /-- MUL, R108. -/
  | mul
  /-- SHL, R109. -/
  | shl
  /-- SHR, R110. -/
  | shr
  /-- XOR, R111. -/
  | xor
  /-- ENCB, R124. -/
  | encb
  /-- DECB, R125. -/
  | decb
  /-- PAD, R141. -/
  | pad
  /-- SPLIT, R142. -/
  | split
  /-- XORV, R160. -/
  | xorv
  /-- CBCE, R161. -/
  | cbce
  /-- CBCD, R162. -/
  | cbcd
  /-- SEED, R184. -/
  | seed
  /-- GENIV, R185; `reseed` is the R flag ("used as a one-bit Boolean", R81). -/
  | geniv (reseed : Bool)
deriving DecidableEq, Repr

end Sys2Proof
end

