-- ==== Sys2Proof/WellFormed.lean ====
section
/-! DEFINITION. Well-formedness. No command has an operand whose value the encoding could exclude (30_encoding.md R81),
so every term of `Instr` is well formed; what can be ill formed is a command WORD, and R82 says which words encode a
command. `legalWord` is R82's sentence, written apart from the decoder. -/
namespace Sys2Proof

/-- OPC = w[7:0] (R80, read as an unsigned number, R13). -/
def opcodeField (w : Word) : Nat := w.toNat % 256

/-- R = w[8] (R80). -/
def reseedField (w : Word) : Nat := w.toNat / 256 % 2

/-- RSV = w[31:9] (R80). -/
def reservedField (w : Word) : Nat := w.toNat / 512

/-- The opcode values of R82's table. -/
def listedOpcodes : List Nat :=
  [0x01, 0x02, 0x03, 0x04, 0x05, 0x06, 0x10, 0x11, 0x20, 0x21, 0x30, 0x31, 0x32, 0x40, 0x41]

/-- The opcode on which R is defined (R80, R82). -/
def genivOpcode : Nat := 0x41

/-- R82, first check: w[7:0] is a value of the table. -/
def opcodeListed (w : Word) : Bool := listedOpcodes.contains (opcodeField w)

/-- R82, second check: w[31:9] = 0. -/
def reservedClear (w : Word) : Bool := reservedField w == 0

/-- R82, third check: w[8] = 0 unless the opcode is GENIV. -/
def reseedAllowed (w : Word) : Bool := reseedField w == 0 || opcodeField w == genivOpcode

/-- "A word w encodes a command exactly when w[7:0] is a value in this table, w[31:9] = 0, and w[8] = 0 unless the
opcode is GENIV." (R82) -/
def legalWord (w : Word) : Bool := opcodeListed w && reservedClear w && reseedAllowed w

/-- Every command term is well formed: R81 leaves no operand to check, and both values of GENIV's R flag are legal. -/
def Instr.wellFormed : Instr → Bool
  | .add | .sub | .mul | .shl | .shr | .xor => true
  | .encb | .decb | .pad | .split | .xorv | .cbce | .cbcd | .seed => true
  | .geniv _ => true

end Sys2Proof
end

