-- ==== Sys2Proof/Decode.lean ====
section
/-! DEFINITION. The decoder, total on every 32-bit word (30_encoding.md R83), and the encoder written from the opcode
map (R82). -/
namespace Sys2Proof

/-- Why a word is Illegal (R84 lists the causes). The block reports one code for all of them. -/
inductive IllegalWord where
  /-- a bit of w[31:9] is set -/
  | reservedBits
  /-- w[7:0] is not in the opcode map (opcode 0 included) -/
  | unlistedOpcode
  /-- w[8] = 1 on an opcode other than GENIV -/
  | reseedFlag
deriving DecidableEq, Repr

/-- The commands whose R bit must be 0, by opcode (R83's case list without GENIV). -/
def plainCommand (opc : Nat) : Option Instr :=
  match opc with
  | 0x01 => some .add
  | 0x02 => some .sub
  | 0x03 => some .mul
  | 0x04 => some .shl
  | 0x05 => some .shr
  | 0x06 => some .xor
  | 0x10 => some .encb
  | 0x11 => some .decb
  | 0x20 => some .pad
  | 0x21 => some .split
  | 0x30 => some .xorv
  | 0x31 => some .cbce
  | 0x32 => some .cbcd
  | 0x40 => some .seed
  | _ => none

/-- Decode(w) of R83, its tests in the rule's order. -/
def decode (w : Word) : Except IllegalWord Instr :=
  if reservedField w ≠ 0 then .error .reservedBits
  else if opcodeField w = genivOpcode then .ok (.geniv (reseedField w == 1))
  else
    match plainCommand (opcodeField w) with
    | none => .error .unlistedOpcode
    | some i => if reseedField w ≠ 0 then .error .reseedFlag else .ok i

/-- The opcode of a command (R82's table). -/
def opcodeOf : Instr → Nat
  | .add => 0x01
  | .sub => 0x02
  | .mul => 0x03
  | .shl => 0x04
  | .shr => 0x05
  | .xor => 0x06
  | .encb => 0x10
  | .decb => 0x11
  | .pad => 0x20
  | .split => 0x21
  | .xorv => 0x30
  | .cbce => 0x31
  | .cbcd => 0x32
  | .seed => 0x40
  | .geniv _ => 0x41

/-- The R bit of a command (R80, R82). -/
def reseedBitOf : Instr → Bool
  | .geniv reseed => reseed
  | .add | .sub | .mul | .shl | .shr | .xor => false
  | .encb | .decb | .pad | .split | .xorv | .cbce | .cbcd | .seed => false

/-- The command word of a command (R80, R82): OPC in bits 7:0, R in bit 8, bits 31:9 zero. -/
def encode (i : Instr) : Word := BitVec.ofNat 32 (opcodeOf i + 256 * (reseedBitOf i).toNat)

/-- The 32-bit word whose bits are w, of which nbits are given and the rest are 0. -/
def tableWord (nbits w : Nat) : Word := BitVec.ofNat 32 (w % 2 ^ nbits)

/-- The command the decoder reads from a table row's word. -/
def decodeTableWord (nbits w : Nat) : Option Instr :=
  match decode (tableWord nbits w) with
  | .ok i => some i
  | .error _ => none

end Sys2Proof
end

