-- ==== Sys2Proof/Config.lean ====
section
/-! DEFINITION. What an implementation fixes (spec/00_scope.md R11) and what the spec leaves open: the
parameters P_BASE, P_MEM_WORDS, P_BS_MAX and P_PRNG, and the uninterpreted constants that stand for open values.
No `opaque` of this file has a body, so nothing can be proved of its value. -/
namespace Sys2Proof

/-- A generator state: the 32-bit view that PRNGS shows (R38) and the rest of a wider state, which the spec leaves
OPEN "within P_PRNG" (R38, 92_eei_decisions.md D15). The default generator uses `view` alone. -/
structure PrngState where
  view : Word
  rest : Nat
deriving DecidableEq, Repr, Inhabited

/-- P_PRNG (R180): the default LCG of R181, or any other total deterministic pair, of which nothing is known but
determinism (log entry 7). -/
inductive PrngChoice where
  | lcg
  | other
deriving DecidableEq, Repr

/-- The implementation parameters of R11. -/
structure Params where
  /-- P_BASE: host byte address of the aperture. -/
  base : Nat
  /-- P_MEM_WORDS: words of buffer memory. -/
  memWords : Nat
  /-- P_BS_MAX: largest effective block size. -/
  bsMax : Nat
  /-- P_PRNG: the generator. -/
  prng : PrngChoice
deriving DecidableEq, Repr

/-- The legal parameter values of R11: P_BASE 4096-aligned; P_MEM_WORDS a power of two from 64 to 2^20; P_BS_MAX even,
2 to 256. -/
abbrev Params.legal (p : Params) : Prop :=
  p.base % 4096 = 0 ∧ (∃ k ∈ List.range 15, p.memWords = 2 ^ (k + 6)) ∧
    p.bsMax % 2 = 0 ∧ 2 ≤ p.bsMax ∧ p.bsMax ≤ 256

/-- P_BASE is OPEN (R11, 93_implementation_defined.md I19): the platform's 4096-byte page (log entry 5). -/
opaque Config.pBaseIndex : Nat

/-- P_BASE of the default parameters: some 4096-aligned address. -/
def Config.pBase : Nat := 4096 * Config.pBaseIndex

/-- The default parameters of R11 (log entry 6). -/
def Config.params : Params := { base := Config.pBase, memWords := 1024, bsMax := 64, prng := .lcg }

/-- SeedFn of a generator other than the default (R180). -/
opaque Config.otherSeedFn : Word → PrngState

/-- Next of a generator other than the default (R180). -/
opaque Config.otherNext : PrngState → Word × PrngState

/-- What a host write of PRNGS leaves of the part PRNGS does not show: OPEN within P_PRNG (R38, D15). What the view accepts
is OPEN there too; the model's choice for it is log entry 7's. -/
opaque Config.otherRestOnWrite : Word → Nat → Nat

/-- What a reset leaves of the part PRNGS does not show: OPEN within P_PRNG (R38, D15). -/
opaque Config.otherRestAtReset : Nat

/-- The unspecified values of R70 (a buffer word not written since reset) and R241 (a host read while busy): the k-th
value drawn. "A model represents it as a draw" (log entry 2). -/
opaque Config.freeWord : Nat → Word

end Sys2Proof
end

