-- ==== Sys2Proof/Machine/State.lean ====
section
/-! DEFINITION. The machine's state (spec/10_state.md R22, R43; 20_memory.md R63), the bus events that reach it
(R61, R230), the reasons a step can stop, and reset (70_reset_and_hazards.md R230). -/
namespace Sys2Proof.Machine

/-- The buffer memory: (aperture byte offset, byte) cells with strictly rising offsets. A word is its four bytes in the
order of R65, most significant first (log entry 1). An unlisted byte has no value: a word not written since reset is
unspecified (R70) and a read of it is a draw (log entry 2). -/
abbrev Memory := List Host.Cell

/-- What the platform does to the block, and when (log entry 3). -/
inductive BusEvent where
  /-- a host read of `width` bytes at host byte address `addr` (HostRead, R61, is the case width = 4, aligned) -/
  | read (addr width : Nat)
  /-- a host write of `width` bytes of `value` at host byte address `addr` (HostWrite, R61) -/
  | write (addr width : Nat) (value : Word)
  /-- reset (R230) -/
  | reset
  /-- a turn of the engine: an accepted command completes (R201), an idle engine does nothing -/
  | engine
deriving DecidableEq, Repr

/-- The state (R43): the registers of R22 under their own names, the buffer memory, and the pending command word (`cmd`)
with STATUS.BUSY. `params` are the implementation parameters of R11; `prngRest`, `draws`, `events` and `rdata` are the
model's own (INVENTORY.md, State). -/
structure State where
  /-- CMD 0x000: the latched command word (R23) -/
  cmd : Word
  /-- STATUS 0x004 (R24) -/
  status : Word
  /-- CTRL 0x008 (R27) -/
  ctrl : Word
  /-- BSIZE 0x00C (R28) -/
  bsize : Word
  /-- SRC 0x010 (R30) -/
  src : Word
  /-- DST 0x014 (R30) -/
  dst : Word
  /-- LEN 0x018 (R30) -/
  len : Word
  /-- IVADDR 0x01C (R30) -/
  ivaddr : Word
  /-- IVLEN 0x020 (R30) -/
  ivlen : Word
  /-- PADV 0x024 (R31) -/
  padv : Word
  /-- MULT 0x028 (R31) -/
  mult : Word
  /-- OUTLEN 0x02C (R32) -/
  outlen : Word
  /-- NBLK 0x030 (R33) -/
  nblk : Word
  /-- OPA 0x034 (R34) -/
  opa : Word
  /-- OPB 0x038 (R34) -/
  opb : Word
  /-- RES 0x03C (R34) -/
  res : Word
  /-- V0 0x040 (R35) -/
  v0 : Word
  /-- V1 0x044 (R35) -/
  v1 : Word
  /-- K0 0x048 (R36) -/
  k0 : Word
  /-- K1 0x04C (R36) -/
  k1 : Word
  /-- K2 0x050 (R36) -/
  k2 : Word
  /-- K3 0x054 (R36) -/
  k3 : Word
  /-- SEED 0x058 (R37) -/
  seed : Word
  /-- PRNGS 0x05C (R38) -/
  prngs : Word
  /-- the buffer memory (R63) -/
  mem : Memory
  /-- the implementation parameters (R11) -/
  params : Params
  /-- the part of a non-default generator's state that PRNGS does not show (R38) -/
  prngRest : Nat
  /-- how many unspecified values have been drawn (R70, R241) -/
  draws : Nat
  /-- the bus events still to come, first one next -/
  events : List BusEvent
  /-- the port bus_rdata (R78): the value the last host read returned -/
  rdata : Word
deriving DecidableEq, Repr

/-- No step of this machine faults: every error is a result code in STATUS (60_exceptions.md R200, R205), and no
behaviour of the spec calls for a stop that is not a refusal. The type is empty, so that nothing can answer a fault. -/
inductive Fault where
deriving DecidableEq, Repr

/-- The steps the model refuses. No command is among them. -/
inductive Refusal where
  /-- raised by exec for an instruction that has no meaning yet (none); safe -/
  | notModelled (mnemonic : String)
  /-- raised by a bus event: a host address outside the aperture is "the platform's" (R60; 93_implementation_defined.md
  I12: refuse); safe -/
  | outsideAperture
  /-- raised by a bus event: "a narrower, wider or misaligned access is outside it: the spec gives it no meaning, and a
  model refuses it" (R62); safe -/
  | notAWordAccess
deriving DecidableEq, Repr

/-- The state right after reset of a block with parameters p (R230): every register 0x00000000, the buffer memory
unspecified (nothing listed). The values of the model's own fields are DESIGN CHOICE (log entries 2, 3, 7, 8). -/
def State.resetWith (p : Params) : State :=
  { cmd := 0, status := 0, ctrl := 0, bsize := 0, src := 0, dst := 0, len := 0, ivaddr := 0, ivlen := 0,
    padv := 0, mult := 0, outlen := 0, nblk := 0, opa := 0, opb := 0, res := 0, v0 := 0, v1 := 0,
    k0 := 0, k1 := 0, k2 := 0, k3 := 0, seed := 0, prngs := 0,
    mem := [], params := p, prngRest := 0, draws := 0, events := [], rdata := 0 }

/-- The machine right after reset, with the default parameters of R11. -/
def State.reset : State := State.resetWith Config.params

end Sys2Proof.Machine
end

