-- ==== Sys2Proof/Machine/Flags.lean ====
section
/-! DEFINITION. The fields of STATUS (spec/10_state.md R24) and CTRL (R27), the error codes (60_exceptions.md R202), and
the three updates of STATUS: acceptance (R25), completion (R26) and a dropped write (R240). -/
namespace Sys2Proof.Machine

/-- The four errors of R202. -/
inductive CmdError where
  | lengthMismatch
  | invalidBlockSize
  | addressRange
  | illegalCommand
deriving DecidableEq, Repr

/-- The code of an error in STATUS.ERRCODE (R202). -/
def CmdError.code : CmdError → Nat
  | .lengthMismatch => 1
  | .invalidBlockSize => 2
  | .addressRange => 3
  | .illegalCommand => 4

/-- STATUS.BUSY, bit 0 (R24). -/
def statusBusy (w : Word) : Bool := w.getLsbD 0

/-- STATUS.DONE, bit 1 (R24). -/
def statusDone (w : Word) : Bool := w.getLsbD 1

/-- STATUS.ERR, bit 2 (R24). -/
def statusErr (w : Word) : Bool := w.getLsbD 2

/-- STATUS.OVR, bit 3 (R24). -/
def statusOvr (w : Word) : Bool := w.getLsbD 3

/-- STATUS.ERRCODE, bits 7:4, as an unsigned number (R24). -/
def statusErrCode (w : Word) : Nat := w.toNat / 16 % 16

/-- The STATUS word with these fields, reserved bits 0 (R24). -/
def statusWord (busy done err ovr : Bool) (code : Nat) : Word :=
  BitVec.ofNat 32 (busy.toNat + 2 * done.toNat + 4 * err.toNat + 8 * ovr.toNat + 16 * code)

/-- R25: BUSY <- 1, DONE, ERR, OVR and ERRCODE <- 0. -/
def acceptedStatus : Word := statusWord true false false false 0

/-- R26: BUSY <- 0, DONE <- 1, ERR <- (code != 0), ERRCODE <- code, OVR as it stands. -/
def completedStatus (old : Word) (code : Nat) : Word := statusWord false true (code != 0) (statusOvr old) code

/-- R240: nothing but STATUS.OVR, "which it sets to 1". -/
def overrunStatus (old : Word) : Word := old ||| 0x8#32

/-- What a read of STATUS shows: "every other bit reads 0" (R24). -/
def statusShown (w : Word) : Word := w &&& 0xFF#32

/-- CTRL.ODDBS_COMPAT, bit 0 (R27). -/
def ctrlOddbsCompat (w : Word) : Bool := w.getLsbD 0

/-- CTRL.IV_LEGACY, bit 1 (R27). -/
def ctrlIvLegacy (w : Word) : Bool := w.getLsbD 1

/-- The implemented bits of CTRL: "bits 31:2 are reserved, ignore writes and read 0" (R27). -/
def ctrlImplemented (w : Word) : Word := w &&& 0x3#32

end Sys2Proof.Machine
end

