-- ==== Sys2Proof/Machine/Memory.lean ====
section
/-! DEFINITION. The buffer memory as data (spec/20_memory.md R60, R63, R65): reading and writing one byte, and the one
place where a word is built from its bytes. -/
namespace Sys2Proof.Machine

/-- The byte at an aperture offset, if one was written. -/
def Memory.readByte : Memory → Nat → Option Byte
  | [], _ => none
  | (k, b) :: rest, a => if k = a then some b else Memory.readByte rest a

/-- Write one byte, keeping the offsets strictly rising. -/
def Memory.writeByte : Memory → Nat → Byte → Memory
  | [], a, b => [(a, b)]
  | (k, c) :: rest, a, b =>
    if a < k then (a, b) :: (k, c) :: rest
    else if a = k then (a, b) :: rest
    else (k, c) :: Memory.writeByte rest a b

/-- The canonical form: offsets strictly rising. An unlisted byte has no value, so every listed byte differs from it. -/
abbrev Memory.wf (m : Memory) : Prop := m.Pairwise (fun c d => c.1 < d.1)

/-- The aperture offset of buffer word a (R60: "word address a at offset 0x1000 + 4 * a"). -/
def bufferOffset (a : Nat) : Nat := 0x1000 + 4 * a

/-- Byte j of a word in the serialised order of R65: `w[31:24], w[23:16], w[15:8], w[7:0]`. -/
def wordByte (w : Word) (j : Nat) : Byte := w.extractLsb' (24 - 8 * j) 8

/-- "a word w serialised by the host is the bytes w[31:24], w[23:16], w[15:8], w[7:0] in that order" (R65). -/
def serializeWord (w : Word) : List Byte := [wordByte w 0, wordByte w 1, wordByte w 2, wordByte w 3]

/-- "a sequence is serialised word 0 first" (R65, R168). -/
def serializeWords (ws : List Word) : List Byte := ws.flatMap serializeWord

/-- The word whose serialised bytes are b0, b1, b2, b3. -/
def wordOfBytes (b0 b1 b2 b3 : Byte) : Word := b0 ++ b1 ++ b2 ++ b3

/-- The value of buffer word a, `none` if it has not been written since reset (R70). Words are only ever written whole
(R66), so a word with some bytes listed and some not is in no reachable state; it counts as not written. -/
def Memory.readWord (m : Memory) (a : Nat) : Option Word :=
  match m.readByte (bufferOffset a), m.readByte (bufferOffset a + 1),
      m.readByte (bufferOffset a + 2), m.readByte (bufferOffset a + 3) with
  | some b0, some b1, some b2, some b3 => some (wordOfBytes b0 b1 b2 b3)
  | _, _, _, _ => none

/-- Write buffer word a. -/
def Memory.writeWord (m : Memory) (a : Nat) (w : Word) : Memory :=
  (((m.writeByte (bufferOffset a) (wordByte w 0)).writeByte (bufferOffset a + 1) (wordByte w 1)).writeByte
    (bufferOffset a + 2) (wordByte w 2)).writeByte (bufferOffset a + 3) (wordByte w 3)

/-- Every listed byte lies in the buffer memory of n words (R60). -/
abbrev Memory.within (m : Memory) (n : Nat) : Prop := ∀ c ∈ m, 0x1000 ≤ c.1 ∧ c.1 < 0x1000 + 4 * n

/-- Words are written whole (R66): with one byte of a word, all four are listed. -/
abbrev Memory.whole (m : Memory) : Prop :=
  ∀ c ∈ m, ∀ j < 4, (m.readByte (c.1 / 4 * 4 + j)).isSome = true

end Sys2Proof.Machine
end

