-- ==== Sys2Proof/Machine/Ops.lean ====
section
/-! DEFINITION. The operations every command is built from: one named update per part of the state, reads and writes of
the buffer memory with the draws of spec/20_memory.md R70, the completion of a command (10_state.md R26), the raising of
an error (60_exceptions.md R200), the acceptance of a command (R25), and the host's reads and writes of the registers. -/
namespace Sys2Proof.Machine

/-! ## One update per part of the state -/

/-- Latch a command word (R23). -/
def State.setCmd (s : State) (w : Word) : State := { s with cmd := w }

/-- Write STATUS. -/
def State.setStatus (s : State) (w : Word) : State := { s with status := w }

/-- Write OUTLEN (R32). -/
def State.setOutlen (s : State) (n : Nat) : State := { s with outlen := BitVec.ofNat 32 n }

/-- Write NBLK (R33). -/
def State.setNblk (s : State) (n : Nat) : State := { s with nblk := BitVec.ofNat 32 n }

/-- Write RES (R34). -/
def State.setRes (s : State) (w : Word) : State := { s with res := w }

/-- Write V0 and V1 (R35). -/
def State.setBlock (s : State) (a b : Word) : State := { s with v0 := a, v1 := b }

/-- Write the generator state: PRNGS and what it does not show (R38). -/
def State.setPrng (s : State) (g : PrngState) : State := { s with prngs := g.view, prngRest := g.rest }

/-- Replace the buffer memory. -/
def State.setMem (s : State) (m : Memory) : State := { s with mem := m }

/-- Set the count of unspecified values drawn. -/
def State.setDraws (s : State) (n : Nat) : State := { s with draws := n }

/-- Set the bus events still to come. -/
def State.setEvents (s : State) (es : List BusEvent) : State := { s with events := es }

/-- Present a value on bus_rdata (R78). -/
def State.setRdata (s : State) (w : Word) : State := { s with rdata := w }

/-- The generator state (R38). -/
def State.prng (s : State) : PrngState := { view := s.prngs, rest := s.prngRest }

/-! ## Loops and the buffer memory -/

/-- `for i in 0..n` (R15): the body runs for i = 0, 1, ..., n-1 in order; nothing when n = 0. -/
def forRange {σ : Type} (n : Nat) (body : Nat → σ → σ) (init : σ) : σ :=
  match n with
  | 0 => init
  | k + 1 => body k (forRange k body init)

/-- An unspecified Word32 value, a new one on each draw (R70, R241). -/
def drawWord (s : State) : Word × State := (Config.freeWord s.draws, s.setDraws (s.draws + 1))

/-- MemRead(a) (R15): the word last written at a, or a draw when none was written since reset (R70). -/
def memRead (a : Nat) (s : State) : Word × State :=
  match s.mem.readWord a with
  | some w => (w, s)
  | none => drawWord s

/-- MemWrite(a, v) (R15). -/
def memWrite (a : Nat) (w : Word) (s : State) : State := s.setMem (s.mem.writeWord a w)

/-- MemRead(a, n) (R15): n words in increasing address order. -/
def memReadSeq (a : Nat) : Nat → State → List Word × State
  | 0, s => ([], s)
  | n + 1, s =>
    let r := memRead a s
    let rs := memReadSeq (a + 1) n r.2
    (r.1 :: rs.1, rs.2)

/-- MemWrite(a, n, s) (R15): the words of the sequence at a, a+1, ... in that order. -/
def memWriteSeq (a : Nat) : List Word → State → State
  | [], s => s
  | w :: ws, s => memWriteSeq (a + 1) ws (memWrite a w s)

/-! ## Completion, errors, acceptance -/

/-- The STATUS update of completion with a result code (R26). -/
def complete (code : Nat) (s : State) : State := s.setStatus (completedStatus s.status code)

/-- `raise E` (R200): the command completes with the code of E, and "the state after it equals the state before it
except for STATUS". This is all an error does: it "saves nothing and changes no mode, mask or stack" (R205). -/
def raiseError (e : CmdError) (s : State) : State := complete e.code s

/-- Acceptance of a command word (R23, R25): latch it and set STATUS; no other register and no buffer word changes. It
is also what clears an earlier error, the block's only error "return" (R206). -/
def acceptCommand (w : Word) (s : State) : State := (s.setCmd w).setStatus acceptedStatus

/-- The two parts of a command (R16): the check part only reads and passes operands or raises one error; the effect part
runs only when it passes; then STATUS (R201). -/
def runCommand {α : Type} (check : State → Except CmdError α) (effect : α → State → State) (s : State) :
    Host.Outcome State Fault Refusal :=
  match check s with
  | .error e => .next (raiseError e s)
  | .ok a => .next (complete 0 (effect a s))

/-! ## The register file as the host sees it -/

/-- The registers of R22. -/
inductive Reg where
  | cmd | status | ctrl | bsize | src | dst | len | ivaddr | ivlen | padv | mult | outlen | nblk
  | opa | opb | res | v0 | v1 | k0 | k1 | k2 | k3 | seed | prngs
deriving DecidableEq, Repr

/-- The register at an aperture offset (R22). -/
def regAt (o : Nat) : Option Reg :=
  match o with
  | 0x000 => some .cmd
  | 0x004 => some .status
  | 0x008 => some .ctrl
  | 0x00C => some .bsize
  | 0x010 => some .src
  | 0x014 => some .dst
  | 0x018 => some .len
  | 0x01C => some .ivaddr
  | 0x020 => some .ivlen
  | 0x024 => some .padv
  | 0x028 => some .mult
  | 0x02C => some .outlen
  | 0x030 => some .nblk
  | 0x034 => some .opa
  | 0x038 => some .opb
  | 0x03C => some .res
  | 0x040 => some .v0
  | 0x044 => some .v1
  | 0x048 => some .k0
  | 0x04C => some .k1
  | 0x050 => some .k2
  | 0x054 => some .k3
  | 0x058 => some .seed
  | 0x05C => some .prngs
  | _ => none

/-- What a host read of a register returns: CMD reads 0 (R23), the reserved fields of STATUS and CTRL read 0 (R24, R27),
every other register reads as it stands (R40). -/
def readReg (s : State) : Reg → Word
  | .cmd => 0#32
  | .status => statusShown s.status
  | .ctrl => ctrlImplemented s.ctrl
  | .bsize => s.bsize
  | .src => s.src
  | .dst => s.dst
  | .len => s.len
  | .ivaddr => s.ivaddr
  | .ivlen => s.ivlen
  | .padv => s.padv
  | .mult => s.mult
  | .outlen => s.outlen
  | .nblk => s.nblk
  | .opa => s.opa
  | .opb => s.opb
  | .res => s.res
  | .v0 => s.v0
  | .v1 => s.v1
  | .k0 => s.k0
  | .k1 => s.k1
  | .k2 => s.k2
  | .k3 => s.k3
  | .seed => s.seed
  | .prngs => s.prngs

/-- What a host write of PRNGS leaves of the part PRNGS does not show (R38, D15: OPEN under a non-default generator whose
state is wider than 32 bits, and so uninterpreted; under the default generator there is no such part, and keeping the
field as it is is DESIGN CHOICE, log entry 7). -/
def restAfterWrite (s : State) (v : Word) : Nat :=
  match s.params.prng with
  | .lcg => s.prngRest
  | .other => Config.otherRestOnWrite v s.prngRest

/-- A host write of a register while the block is idle: CMD accepts a command (R23), a read-only register is left as it
is (R40), CTRL keeps its implemented bits (R27), every other register takes the value. For PRNGS under a non-default generator
whose state is wider than 32 bits, what the register accepts is OPEN (92_eei_decisions.md D15): that the view takes the
value as it is written, as R40 has it for every register, is DESIGN CHOICE (unsafe, log entry 7). -/
def writeReg (s : State) (v : Word) : Reg → State
  | .cmd => acceptCommand v s
  | .status => s
  | .ctrl => { s with ctrl := ctrlImplemented v }
  | .bsize => { s with bsize := v }
  | .src => { s with src := v }
  | .dst => { s with dst := v }
  | .len => { s with len := v }
  | .ivaddr => { s with ivaddr := v }
  | .ivlen => { s with ivlen := v }
  | .padv => { s with padv := v }
  | .mult => { s with mult := v }
  | .outlen => s
  | .nblk => s
  | .opa => { s with opa := v }
  | .opb => { s with opb := v }
  | .res => s
  | .v0 => { s with v0 := v }
  | .v1 => { s with v1 := v }
  | .k0 => { s with k0 := v }
  | .k1 => { s with k1 := v }
  | .k2 => { s with k2 := v }
  | .k3 => { s with k3 := v }
  | .seed => { s with seed := v }
  | .prngs => s.setPrng { view := v, rest := restAfterWrite s v }

end Sys2Proof.Machine
end

