-- ==== Sys2Proof/Machine/Operands.lean ====
section
/-! DEFINITION. Operand forms: the padded length (spec/00_scope.md R14), the region check (20_memory.md R64), the effective
block size (10_state.md R29), and the Block and Key operands (R35, R36). -/
namespace Sys2Proof.Machine

/-- `roundup(n, m) = ((n + m - 1) / m) * m` (R14). -/
def roundup (n m : Nat) : Nat := (n + m - 1) / m * m

/-- `InRange(base, n) := (n == 0) or (zext_32(base) + n <= P_MEM_WORDS)` in exact arithmetic (R64). -/
def inRange (s : State) (base n : Nat) : Bool := n == 0 || decide (base + n ≤ s.params.memWords)

/-- EffBS() (R29): the effective block size, or InvalidBlockSize. -/
def effBS (s : State) : Except CmdError Nat :=
  let b := s.bsize.toNat
  if b = 0 then .error .invalidBlockSize
  else if b % 2 = 1 then
    if ctrlOddbsCompat s.ctrl then
      if b + 1 > s.params.bsMax then .error .invalidBlockSize else .ok (b + 1)
    else .error .invalidBlockSize
  else if b > s.params.bsMax then .error .invalidBlockSize
  else .ok b

/-- A Block: two Word32 values (R17, R35). -/
structure Block where
  v0 : Word
  v1 : Word
deriving DecidableEq, Repr

/-- A Key: "exactly four Word32 values, fixed order k0..k3" (R17, R36). -/
structure Key where
  k0 : Word
  k1 : Word
  k2 : Word
  k3 : Word
deriving DecidableEq, Repr

/-- The Block operand of ENCB and DECB (R35). -/
def blockOperand (s : State) : Block := { v0 := s.v0, v1 := s.v1 }

/-- The Key operand (R36). -/
def keyOperand (s : State) : Key := { k0 := s.k0, k1 := s.k1, k2 := s.k2, k3 := s.k3 }

end Sys2Proof.Machine
end

