-- ==== Sys2Proof/Machine/Arith.lean ====
section
/-! DEFINITION. The fixed-width arithmetic unit (spec/40_arith.md): the six Word32 primitives (R100 to R105) and the six
commands that expose them (R106 to R111). -/
namespace Sys2Proof.Machine

/-- `add32(a, b) = (zext_32(a) + zext_32(b)) mod 2^32` (R100). -/
def add32 (a b : Word) : Word := a + b

/-- `sub32(a, b) = (zext_32(a) - zext_32(b)) mod 2^32` (R101). -/
def sub32 (a b : Word) : Word := a - b

/-- `mul32(a, b)`: the low 32 bits of the product (R102). -/
def mul32 (a b : Word) : Word := a * b

/-- `shl32(a, n) = (zext_32(a) * 2^zext_32(n)) mod 2^32`; "for every n ≥ 32 ... it is 0", and the amount is the whole
Word32 n (R103). -/
def shl32 (a n : Word) : Word := if n.toNat < 32 then a <<< n.toNat else 0#32

/-- `shr32(a, n) = zext_32(a) / 2^zext_32(n)`: logical; 0 for every n ≥ 32 (R104). -/
def shr32 (a n : Word) : Word := if n.toNat < 32 then a >>> n.toNat else 0#32

/-- `xor32(a, b)`: bitwise exclusive-or (R105). -/
def xor32 (a b : Word) : Word := a ^^^ b

/-- The template of the six commands: operands OPA and OPB, result in RES, no error (40_arith.md §2). -/
def arithCommand (op : Word → Word → Word) (s : State) : Host.Outcome State Fault Refusal :=
  runCommand (fun t => .ok (t.opa, t.opb)) (fun ab t => t.setRes (op ab.1 ab.2)) s

/-- ADD (R106). -/
def execAdd (s : State) : Host.Outcome State Fault Refusal := arithCommand add32 s

/-- SUB: OPA minus OPB (R107). -/
def execSub (s : State) : Host.Outcome State Fault Refusal := arithCommand sub32 s

/-- MUL (R108). -/
def execMul (s : State) : Host.Outcome State Fault Refusal := arithCommand mul32 s

/-- SHL: OPA shifted left by OPB (R109). -/
def execShl (s : State) : Host.Outcome State Fault Refusal := arithCommand shl32 s

/-- SHR: OPA shifted right by OPB (R110). -/
def execShr (s : State) : Host.Outcome State Fault Refusal := arithCommand shr32 s

/-- XOR (R111). -/
def execXor (s : State) : Host.Outcome State Fault Refusal := arithCommand xor32 s

end Sys2Proof.Machine
end

