-- ==== Sys2Proof/Machine/Round.lean ====
section
/-! DEFINITION. The Feistel round engine (spec/41_round_engine.md): the constants (R120), the mixing function (R121), the
cipher as functions (R122, R123), and the commands ENCB (R124) and DECB (R125). The accumulator `sum` and the round counter
are local to a call (R128; log entry 11). -/
namespace Sys2Proof.Machine

/-- DELTA = 0x9E3779B9 (R120). -/
def delta : Word := 0x9E3779B9#32

/-- DSUM0 = 0xC6EF3720, the decryption start value (R120). -/
def dsum0 : Word := 0xC6EF3720#32

/-- F(v, s, ka, kb) (R121). -/
def mixF (v s ka kb : Word) : Word :=
  xor32 (xor32 (add32 (shl32 v 4#32) ka) (add32 v s)) (add32 (shr32 v 5#32) kb)

/-- What a round carries to the next: `sum` and the two words. -/
structure RoundState where
  sum : Word
  v0 : Word
  v1 : Word
deriving DecidableEq, Repr

/-- One encryption round (R122): the second half-round reads the v0 just computed. -/
def encryptRound (k : Key) (r : RoundState) : RoundState :=
  let sum := add32 r.sum delta
  let v0 := add32 r.v0 (mixF r.v1 sum k.k0 k.k1)
  let v1 := add32 r.v1 (mixF v0 sum k.k2 k.k3)
  { sum := sum, v0 := v0, v1 := v1 }

/-- One decryption round (R123): the second half-round reads the v1 just computed. -/
def decryptRound (k : Key) (r : RoundState) : RoundState :=
  let v1 := sub32 r.v1 (mixF r.v0 r.sum k.k2 k.k3)
  let v0 := sub32 r.v0 (mixF v1 r.sum k.k0 k.k1)
  { sum := sub32 r.sum delta, v0 := v0, v1 := v1 }

/-- EncryptBlock (R122): "exactly 32 rounds". -/
def encryptBlock (b : Block) (k : Key) : Block :=
  let r := forRange 32 (fun _ => encryptRound k) { sum := 0#32, v0 := b.v0, v1 := b.v1 }
  { v0 := r.v0, v1 := r.v1 }

/-- DecryptBlock (R123): "exactly 32 rounds". -/
def decryptBlock (b : Block) (k : Key) : Block :=
  let r := forRange 32 (fun _ => decryptRound k) { sum := dsum0, v0 := b.v0, v1 := b.v1 }
  { v0 := r.v0, v1 := r.v1 }

/-- The template of ENCB and DECB: operands V0, V1 and the key, result written back to V0 and V1, no error
(41_round_engine.md §3). -/
def blockCommand (cipher : Block → Key → Block) (s : State) : Host.Outcome State Fault Refusal :=
  runCommand (fun t => .ok (blockOperand t, keyOperand t))
    (fun bk t => let c := cipher bk.1 bk.2; t.setBlock c.v0 c.v1) s

/-- ENCB (R124). -/
def execEncb (s : State) : Host.Outcome State Fault Refusal := blockCommand encryptBlock s

/-- DECB (R125). -/
def execDecb (s : State) : Host.Outcome State Fault Refusal := blockCommand decryptBlock s

end Sys2Proof.Machine
end

