-- ==== Sys2Proof/Machine/Cbc.lean ====
section
/-! DEFINITION. The CBC chain controller (spec/43_cbc.md): XORV (R160), CBCE (R161) and CBCD (R162). The chain value is
local to a command (10_state.md R42; log entry 11). Decryption is standard CBC, as 90_conflicts.md C1 settles it. -/
namespace Sys2Proof.Machine

/-! ## XORV -/

/-- The operands XORV's check part passes on. -/
structure XorPlan where
  src : Nat
  iva : Nat
  dst : Nat
  n : Nat
deriving DecidableEq, Repr

/-- XORV's check part (R160): LengthMismatch, then AddressRange. -/
def xorvCheck (s : State) : Except CmdError XorPlan :=
  let n := s.len.toNat
  let src := s.src.toNat
  let iva := s.ivaddr.toNat
  let dst := s.dst.toNat
  if n ≠ s.ivlen.toNat then .error .lengthMismatch
  else if inRange s src n && inRange s iva n && inRange s dst n then
    .ok { src := src, iva := iva, dst := dst, n := n }
  else .error .addressRange

/-- One element of XORV (R160): read both operands, then write. -/
def xorvElement (p : XorPlan) (i : Nat) (s : State) : State :=
  let a := memRead (p.src + i) s
  let b := memRead (p.iva + i) a.2
  memWrite (p.dst + i) (xor32 a.1 b.1) b.2

/-- XORV's effect part (R160). -/
def xorvEffect (p : XorPlan) (s : State) : State := (forRange p.n (xorvElement p) s).setOutlen p.n

/-- XORV (R160). -/
def execXorv (s : State) : Host.Outcome State Fault Refusal := runCommand xorvCheck xorvEffect s

/-! ## The chaining blocks -/

/-- The operands CBCE's and CBCD's check parts pass on: effective block size, length n, output length p, regions, key. -/
structure CbcPlan where
  bs : Nat
  n : Nat
  p : Nat
  src : Nat
  dst : Nat
  iva : Nat
  key : Key
deriving DecidableEq, Repr

/-- Elementwise XOR of two sequences of the same length. -/
def xorWords (xs ys : List Word) : List Word := List.zipWith xor32 xs ys

/-- `for m in 0..(bs / 2): (y[2m], y[2m+1]) <- cipher((x[2m], x[2m+1]), k)`: the sequential cipher calls of one chaining
block (R161, R162). The chaining blocks have an even size (R145). -/
def cipherWords (cipher : Block → Key → Block) (k : Key) : List Word → List Word
  | x0 :: x1 :: xs =>
    let c := cipher { v0 := x0, v1 := x1 } k
    c.v0 :: c.v1 :: cipherWords cipher k xs
  | xs => xs

/-- The words a block of CBCE feeds to the XOR (R161): `if off < n then MemRead(src + off) else 0x00000000` for count
offsets from off; the padding is virtual and words beyond n are not read. -/
def readPadded (src n off : Nat) : Nat → State → List Word × State
  | 0, s => ([], s)
  | count + 1, s =>
    let r := if off < n then memRead (src + off) s else (0#32, s)
    let rs := readPadded src n (off + 1) count r.2
    (r.1 :: rs.1, rs.2)

/-! ## CBCE -/

/-- CBCE's check part (R161): EffBS, LengthMismatch, AddressRange. -/
def cbceCheck (s : State) : Except CmdError CbcPlan :=
  match effBS s with
  | .error e => .error e
  | .ok bs =>
    let src := s.src.toNat
    let dst := s.dst.toNat
    let iva := s.ivaddr.toNat
    let n := s.len.toNat
    let p := roundup n bs
    if s.ivlen.toNat ≠ bs then .error .lengthMismatch
    else if inRange s src n && inRange s dst p && inRange s iva bs then
      .ok { bs := bs, n := n, p := p, src := src, dst := dst, iva := iva, key := keyOperand s }
    else .error .addressRange

/-- One chaining block of CBCE (R161): XOR with the chain value, encrypt, write; the chain value becomes this block's
ciphertext (R164). -/
def cbceBlock (p : CbcPlan) (i : Nat) (cs : List Word × State) : List Word × State :=
  let r := readPadded p.src p.n (i * p.bs) p.bs cs.2
  let c := cipherWords encryptBlock p.key (xorWords r.1 cs.1)
  (c, memWriteSeq (p.dst + i * p.bs) c r.2)

/-- CBCE's effect part (R161): the chain value starts as a copy of the IV, read once before any write. -/
def cbceEffect (p : CbcPlan) (s : State) : State :=
  let s' := (forRange (p.p / p.bs) (cbceBlock p) (memReadSeq p.iva p.bs s)).2
  (s'.setOutlen p.p).setNblk (p.p / p.bs)

/-- CBCE (R161). -/
def execCbce (s : State) : Host.Outcome State Fault Refusal := runCommand cbceCheck cbceEffect s

/-! ## CBCD -/

/-- CBCD's check part (R162): EffBS, LengthMismatch (the IV, then a short final block), AddressRange. -/
def cbcdCheck (s : State) : Except CmdError CbcPlan :=
  match effBS s with
  | .error e => .error e
  | .ok bs =>
    let src := s.src.toNat
    let dst := s.dst.toNat
    let iva := s.ivaddr.toNat
    let n := s.len.toNat
    if s.ivlen.toNat ≠ bs then .error .lengthMismatch
    else if n % bs ≠ 0 then .error .lengthMismatch
    else if inRange s src n && inRange s dst n && inRange s iva bs then
      .ok { bs := bs, n := n, p := n, src := src, dst := dst, iva := iva, key := keyOperand s }
    else .error .addressRange

/-- One chaining block of CBCD (R162): read the ciphertext block, decrypt, XOR with the chain value, write; the chain
value becomes the ciphertext block as read (R164). -/
def cbcdBlock (p : CbcPlan) (i : Nat) (cs : List Word × State) : List Word × State :=
  let c := memReadSeq (p.src + i * p.bs) p.bs cs.2
  let q := xorWords (cipherWords decryptBlock p.key c.1) cs.1
  (c.1, memWriteSeq (p.dst + i * p.bs) q c.2)

/-- CBCD's effect part (R162). -/
def cbcdEffect (p : CbcPlan) (s : State) : State :=
  let s' := (forRange (p.n / p.bs) (cbcdBlock p) (memReadSeq p.iva p.bs s)).2
  (s'.setOutlen p.n).setNblk (p.n / p.bs)

/-- CBCD (R162). -/
def execCbcd (s : State) : Host.Outcome State Fault Refusal := runCommand cbcdCheck cbcdEffect s

end Sys2Proof.Machine
end

