-- ==== Sys2Proof/Machine/Framer.lean ====
section
/-! DEFINITION. The block framer and padder (spec/42_framer.md): PAD (R141) and SPLIT (R142), in place. -/
namespace Sys2Proof.Machine

/-- The operands a framing command's check part passes on: base word address, length, padded length. -/
structure FramePlan where
  base : Nat
  n : Nat
  p : Nat
deriving DecidableEq, Repr

/-- `for k in 0..(p - n): MemWrite(base + n + k, pv)` (R141, R142). -/
def appendPad (f : FramePlan) (pv : Word) (s : State) : State :=
  forRange (f.p - f.n) (fun k t => memWrite (f.base + f.n + k) pv t) s

/-- PAD's check part (R141). -/
def padCheck (s : State) : Except CmdError (FramePlan × Word) :=
  let base := s.src.toNat
  let n := s.len.toNat
  let m := s.mult.toNat
  if m = 0 then .error .invalidBlockSize
  else if inRange s base (roundup n m) then .ok ({ base := base, n := n, p := roundup n m }, s.padv)
  else .error .addressRange

/-- PAD's effect part (R141). -/
def padEffect (f : FramePlan × Word) (s : State) : State := (appendPad f.1 f.2 s).setOutlen f.1.p

/-- PAD (R141). -/
def execPad (s : State) : Host.Outcome State Fault Refusal := runCommand padCheck padEffect s

/-- SPLIT's check part (R142): EffBS, then the range. -/
def splitCheck (s : State) : Except CmdError (FramePlan × Nat) :=
  match effBS s with
  | .error e => .error e
  | .ok bs =>
    let base := s.src.toNat
    let n := s.len.toNat
    if inRange s base (roundup n bs) then .ok ({ base := base, n := n, p := roundup n bs }, bs)
    else .error .addressRange

/-- SPLIT's effect part (R142): zero padding, OUTLEN, NBLK. -/
def splitEffect (f : FramePlan × Nat) (s : State) : State :=
  ((appendPad f.1 0#32 s).setOutlen f.1.p).setNblk (f.1.p / f.2)

/-- SPLIT (R142). -/
def execSplit (s : State) : Host.Outcome State Fault Refusal := runCommand splitCheck splitEffect s

end Sys2Proof.Machine
end

