-- ==== Sys2Proof/Machine/IvGen.lean ====
section
/-! DEFINITION. The pseudo-random IV generator (spec/44_ivgen.md): P_PRNG (R180) with its default (R181), the value range
(R182), and the commands SEED (R184) and GENIV (R185). -/
namespace Sys2Proof.Machine

/-- `s' = add32(mul32(1664525, s), 1013904223)` (R181). -/
def lcgNext (s : Word) : Word := add32 (mul32 1664525#32 s) 1013904223#32

/-- SeedFn of P_PRNG (R180): the identity for the default (R181). -/
def seedFn (c : PrngChoice) (seed : Word) : PrngState :=
  match c with
  | .lcg => { view := seed, rest := 0 }
  | .other => Config.otherSeedFn seed

/-- Next of P_PRNG (R180): for the default, the new state is also the value (R181). -/
def nextFn (c : PrngChoice) (g : PrngState) : Word × PrngState :=
  match c with
  | .lcg => (lcgNext g.view, { view := lcgNext g.view, rest := g.rest })
  | .other => Config.otherNext g

/-- Range(w) (R182): w, or `zext_32(w) mod 34` when CTRL.IV_LEGACY = 1. -/
def ivRange (ctrl w : Word) : Word := if ctrlIvLegacy ctrl then BitVec.ofNat 32 (w.toNat % 34) else w

/-- SEED (R184). -/
def execSeed (s : State) : Host.Outcome State Fault Refusal :=
  runCommand (fun t => .ok t.seed) (fun w t => t.setPrng (seedFn t.params.prng w)) s

/-- GENIV's check part (R185): the destination's base and the length. -/
def genivCheck (s : State) : Except CmdError (Nat × Nat) :=
  let n := s.len.toNat
  let dst := s.dst.toNat
  if inRange s dst n then .ok (dst, n) else .error .addressRange

/-- One generated word (R185): step the generator, write the ranged value. -/
def genivWord (dst i : Nat) (gs : PrngState × State) : PrngState × State :=
  let r := nextFn gs.2.params.prng gs.1
  (r.2, memWrite (dst + i) (ivRange gs.2.ctrl r.1) gs.2)

/-- GENIV's effect part (R185): with R = 1 the generator restarts from SEED first. -/
def genivEffect (reseed : Bool) (d : Nat × Nat) (s : State) : State :=
  let g := if reseed then seedFn s.params.prng s.seed else s.prng
  let r := forRange d.2 (genivWord d.1) (g, s)
  (r.2.setPrng r.1).setOutlen d.2

/-- GENIV (R185). -/
def execGeniv (reseed : Bool) (s : State) : Host.Outcome State Fault Refusal :=
  runCommand genivCheck (genivEffect reseed) s

end Sys2Proof.Machine
end

