-- ==== Sys2Proof/Machine/Dispatch.lean ====
section
/-! DEFINITION. exec: one arm per command (spec/30_encoding.md R82), each the completion of that command (60_exceptions.md
R201): check part, effect part, STATUS. -/
namespace Sys2Proof.Machine

def exec (i : Instr) (s : State) : Host.Outcome State Fault Refusal :=
  match i with
  | .add => Sys2Proof.Machine.execAdd s
  | .sub => Sys2Proof.Machine.execSub s
  | .mul => Sys2Proof.Machine.execMul s
  | .shl => Sys2Proof.Machine.execShl s
  | .shr => Sys2Proof.Machine.execShr s
  | .xor => Sys2Proof.Machine.execXor s
  | .encb => Sys2Proof.Machine.execEncb s
  | .decb => Sys2Proof.Machine.execDecb s
  | .pad => Sys2Proof.Machine.execPad s
  | .split => Sys2Proof.Machine.execSplit s
  | .xorv => Sys2Proof.Machine.execXorv s
  | .cbce => Sys2Proof.Machine.execCbce s
  | .cbcd => Sys2Proof.Machine.execCbcd s
  | .seed => Sys2Proof.Machine.execSeed s
  | .geniv reseed => Sys2Proof.Machine.execGeniv reseed s

end Sys2Proof.Machine
end

