-- ==== Sys2Proof/Machine/HostAccess.lean ====
section
/-! DEFINITION. What the outside can do to the block: HostRead and HostWrite (spec/20_memory.md R61) through the aperture
(R60), and reset (70_reset_and_hazards.md R230, R231). -/
namespace Sys2Proof.Machine

/-- What an aperture offset reaches (R60). -/
inductive Target where
  | register (r : Reg)
  /-- 0x060 to 0xFFF (R39) -/
  | unmapped
  /-- buffer word a -/
  | buffer (a : Nat)
deriving DecidableEq, Repr

/-- The target of an aligned offset within the aperture (R60). -/
def targetAt (o : Nat) : Target :=
  if o < 0x1000 then
    match regAt o with
    | some r => .register r
    | none => .unmapped
  else .buffer ((o - 0x1000) / 4)

/-- The size of the aperture in bytes (R18, R60). -/
def apertureSize (p : Params) : Nat := 0x1000 + 4 * p.memWords

/-- The target of an access of `width` bytes at host byte address `addr`: refused outside the aperture (R60) and when it
is not one whole aligned word (R62). -/
def busTarget (p : Params) (addr width : Nat) : Except Refusal Target :=
  if addr < p.base ∨ p.base + apertureSize p ≤ addr then .error .outsideAperture
  else if width ≠ 4 ∨ (addr - p.base) % 4 ≠ 0 then .error .notAWordAccess
  else .ok (targetAt (addr - p.base))

/-- The value of HostRead while the block is idle: a register (R40), 0 at an unmapped offset (R39), or a buffer word
(R63, R70). -/
def readIdle (t : Target) (s : State) : Word × State :=
  match t with
  | .register r => (readReg s r, s)
  | .unmapped => (0#32, s)
  | .buffer a => memRead a s

/-- The value of HostRead while a command runs: STATUS as it stands, anything else an unspecified value (R241). -/
def readBusy (t : Target) (s : State) : Word × State :=
  match t with
  | .register .status => (readReg s .status, s)
  | .register _ => drawWord s
  | .unmapped => drawWord s
  | .buffer _ => drawWord s

/-- HostRead (R61): the value appears on bus_rdata; the block's state does not change (R67). -/
def hostRead (t : Target) (s : State) : State :=
  let r := if statusBusy s.status then readBusy t s else readIdle t s
  r.2.setRdata r.1

/-- HostWrite (R61): while a command runs it is dropped and sets STATUS.OVR (R240), whatever its target; while the block
is idle it has its target's effect (R39, R40, R63). -/
def hostWrite (t : Target) (v : Word) (s : State) : State :=
  if statusBusy s.status then s.setStatus (overrunStatus s.status)
  else
    match t with
    | .register r => writeReg s v r
    | .unmapped => s
    | .buffer a => memWrite a v s

/-- What a reset leaves of the part of the generator state that PRNGS does not show (R38, D15: OPEN under a non-default
generator whose state is wider than 32 bits; 0 under the default generator is DESIGN CHOICE, log entry 7). -/
def restAfterReset (p : Params) : Nat :=
  match p.prng with
  | .lcg => 0
  | .other => Config.otherRestAtReset

/-- Reset (R230, R231): every register to its reset value, the pending command discarded, every buffer word unspecified.
The parameters stay; so do the model's own `draws`, `events` and `rdata`, which are not state of the block (log entry
14). -/
def hostReset (s : State) : State :=
  { State.resetWith s.params with
    prngRest := restAfterReset s.params, draws := s.draws, events := s.events, rdata := s.rdata }

/-- The port `busy`: "a copy of STATUS.BUSY" (R78). -/
def busyPort (s : State) : Bool := statusBusy s.status

/-- A bus read event. -/
def busRead (addr width : Nat) (s : State) : Host.Outcome State Fault Refusal :=
  match busTarget s.params addr width with
  | .error r => .refused r
  | .ok t => .next (hostRead t s)

/-- A bus write event. -/
def busWrite (addr width : Nat) (v : Word) (s : State) : Host.Outcome State Fault Refusal :=
  match busTarget s.params addr width with
  | .error r => .refused r
  | .ok t => .next (hostWrite t v s)

end Sys2Proof.Machine
end

