-- ==== Sys2Proof/Machine/Step.lean ====
section
/-! DEFINITION. One step of the machine: the next bus event, or the engine's completion step (spec/60_exceptions.md R201). -/
namespace Sys2Proof.Machine

/-- Complete() (R201): enabled while STATUS.BUSY = 1; an Illegal word completes with IllegalCommand (R84), any other word
runs its command. While idle the engine does nothing (R221). -/
def engineTurn (s : State) : Host.Outcome State Fault Refusal :=
  if statusBusy s.status then
    match decode s.cmd with
    | .error _ => .next (raiseError .illegalCommand s)
    | .ok i => exec i s
  else .next s

/-- One step: the first event of `events` happens and is used up; when there is none, the engine moves (log entry 3). -/
def step (s : State) : Host.Outcome State Fault Refusal :=
  match s.events with
  | [] => engineTurn s
  | .engine :: es => engineTurn (s.setEvents es)
  | .reset :: es => .next (hostReset (s.setEvents es))
  | .read addr width :: es => busRead addr width (s.setEvents es)
  | .write addr width v :: es => busWrite addr width v (s.setEvents es)

/-- The state in which a table row's word has just been accepted (R23, R25) and the engine moves next (log entry 4). -/
def State.withFetchWord (s : State) (nbits w : Nat) : State :=
  (acceptCommand (tableWord nbits w) s).setEvents (.engine :: s.events)

end Sys2Proof.Machine
end

