-- ==== Sys2Proof/Safety.lean ====
section
/-! DEFINITION. The words the statements use: what an invariant of the machine is, when a bus event is part of the
interface, the STATUS word a completed command leaves, and what it means that memory outside a region is unchanged. -/
namespace Sys2Proof.Machine

/-- STATUS after completion with a result code (spec/10_state.md R26), written out as a number: DONE = 2, ERR = 4 when the
code is not 0, OVR = 8 as it stood, ERRCODE in bits 7:4, every other bit 0. -/
def statusAfter (code : Nat) (s : State) : Word :=
  BitVec.ofNat 32 (2 + (if code = 0 then 0 else 4) + (if s.status.getLsbD 3 then 8 else 0) + 16 * code)

/-- The region check of 20_memory.md R64. -/
def regionFits (s : State) (base n : Nat) : Prop := n = 0 ∨ base + n ≤ s.params.memWords

/-- Every byte outside the n words from word address base reads the same in t as in s. -/
def sameOutside (base n : Nat) (s t : State) : Prop :=
  ∀ k, (k < 0x1000 + 4 * base ∨ 0x1000 + 4 * (base + n) ≤ k) → t.mem.readByte k = s.mem.readByte k

/-- Every byte of the buffer memory reads the same in t as in s. -/
def sameMemory (s t : State) : Prop := ∀ k, t.mem.readByte k = s.mem.readByte k

/-- What a command reads at word address a when it has so far written the w words from dst and will end in state t
(20_memory.md R69): a word it has written reads as what it wrote (each word is written once, so as t has it); any other
word reads as s has it, and as anything when s has no value there (R70). -/
def readsAs (s t : State) (dst w a : Nat) (v : Word) : Prop :=
  if dst ≤ a ∧ a < dst + w then t.mem.readWord a = some v
  else ∀ x, s.mem.readWord a = some x → v = x

/-- Word j of the chain value at block i (43_cbc.md R164): the IV at block 0, ciphertext block i - 1 after that. -/
def chainWord (iv c : Nat → Word) (bs i j : Nat) : Word := if i = 0 then iv j else c ((i - 1) * bs + j)

/-! ## Invariants -/

/-- The buffer memory is canonical, its words are listed whole (R66), and it lies in the aperture's buffer range (R60). -/
structure MemoryInv (s : State) : Prop where
  canonical : s.mem.wf
  whole : s.mem.whole
  within : s.mem.within s.params.memWords

/-- The STATUS words that can be (10_state.md R24; 60_exceptions.md R202; 93_implementation_defined.md I14, I15): reserved
bits 0, BUSY and DONE never together, ERRCODE at most 4, ERR exactly when ERRCODE is not 0, and ERR only with DONE. -/
abbrev statusLegal (w : Word) : Prop :=
  w.toNat < 256 ∧ ¬ (w.getLsbD 0 = true ∧ w.getLsbD 1 = true) ∧ w.toNat / 16 % 16 ≤ 4 ∧
    (w.getLsbD 2 = true ↔ w.toNat / 16 % 16 ≠ 0) ∧ (w.getLsbD 2 = true → w.getLsbD 1 = true)

/-- STATUS holds a word that can be. -/
def StatusInv (s : State) : Prop := statusLegal s.status

/-- The reserved bits of CTRL are 0 (10_state.md R27), and the lengths the block reports fit the buffer memory (R32,
R33). -/
structure RegisterInv (s : State) : Prop where
  ctrl : s.ctrl.toNat < 4
  outlen : s.outlen.toNat ≤ s.params.memWords
  nblk : s.nblk.toNat ≤ s.params.memWords

/-! ## Safe runs -/

/-- The events that are part of the interface: whole aligned word accesses within the aperture (R60, R62), reset, and
engine turns. -/
def eventLegal (p : Params) : BusEvent → Prop
  | .read addr width | .write addr width _ =>
    p.base ≤ addr ∧ addr < p.base + (0x1000 + 4 * p.memWords) ∧ width = 4 ∧ (addr - p.base) % 4 = 0
  | .reset => True
  | .engine => True

/-- A safe run: k steps, none of which stops. -/
def safeRun (k : Nat) (s : State) : Prop := ∃ t, Host.Core.run Sys2Proof.core k s = .next t

end Sys2Proof.Machine
end

