-- ==== Sys2Proof/Certificates/Slice0/Obligations.lean ====
section
/-! DEFINITION. The statements for the provers. Each docstring names the rule of spec/ it formalises. -/
open Sys2Proof Sys2Proof.Machine

/-! ## Encoding -/

/-- Words written out from R82's table: OPC in bits 7:0, R in bit 8, zeros above. -/
def Obligations.SampleWordsDecode : Prop :=
  decode 0x00000001#32 = .ok .add ∧ decode 0x00000005#32 = .ok .shr ∧ decode 0x00000011#32 = .ok .decb ∧
    decode 0x00000021#32 = .ok .split ∧ decode 0x00000032#32 = .ok .cbcd ∧ decode 0x00000040#32 = .ok .seed ∧
    decode 0x00000041#32 = .ok (.geniv false) ∧ decode 0x00000141#32 = .ok (.geniv true)

/-- Decoding an encoded command gives it back, whatever its R flag, and a word that decodes is the one encoding of its
command: no bit of a word is dropped, none is read twice (R80, R82, R83). -/
def Obligations.DecodeOfEncode : Prop :=
  (∀ i : Instr, i.wellFormed = true → decode (encode i) = .ok i) ∧
    ∀ (w : Word) (i : Instr), decode w = .ok i → i.wellFormed = true ∧ encode i = w

/-- R82's table: the sixteen words that encode a command, and their commands. -/
def opcodeMap : List (Word × Instr) :=
  [(0x00000001, .add), (0x00000002, .sub), (0x00000003, .mul), (0x00000004, .shl), (0x00000005, .shr),
   (0x00000006, .xor), (0x00000010, .encb), (0x00000011, .decb), (0x00000020, .pad), (0x00000021, .split),
   (0x00000030, .xorv), (0x00000031, .cbce), (0x00000032, .cbcd), (0x00000040, .seed), (0x00000041, .geniv false),
   (0x00000141, .geniv true)]

/-- R82: a word encodes a command exactly when its opcode is listed, its reserved bits are 0, and R is 0 unless the opcode
is GENIV; those are the sixteen words of the table, and each encodes the command the table gives it. -/
def Obligations.LegalWordsAreTheSixteen : Prop :=
  ∀ w : Word,
    ((∃ i, decode w = .ok i) ↔
      w.toNat % 256 ∈ [0x01, 0x02, 0x03, 0x04, 0x05, 0x06, 0x10, 0x11, 0x20, 0x21, 0x30, 0x31, 0x32, 0x40, 0x41] ∧
        w.toNat / 512 = 0 ∧ (w.toNat / 256 % 2 = 0 ∨ w.toNat % 256 = 0x41)) ∧
    ∀ i : Instr, decode w = .ok i ↔ (w, i) ∈ opcodeMap

/-! ## Arithmetic unit -/

/-- R100 to R105: the six primitives as exact integer arithmetic. -/
def Obligations.PrimitivesAreExactArithmetic : Prop :=
  ∀ a b : Word,
    (add32 a b).toNat = (a.toNat + b.toNat) % 2 ^ 32 ∧
    ((sub32 a b).toNat : Int) = ((a.toNat : Int) - (b.toNat : Int)) % 2 ^ 32 ∧
    (mul32 a b).toNat = a.toNat * b.toNat % 2 ^ 32 ∧
    (shl32 a b).toNat = a.toNat * 2 ^ b.toNat % 2 ^ 32 ∧
    (shr32 a b).toNat = a.toNat / 2 ^ b.toNat ∧
    ∀ i < 32, ((xor32 a b).getLsbD i = true ↔ a.getLsbD i ≠ b.getLsbD i)

/-- R112: the laws of the primitives. -/
def Obligations.ArithmeticLaws : Prop :=
  ∀ a b c n : Word,
    sub32 (add32 a b) b = a ∧ add32 (sub32 a b) b = a ∧ xor32 (xor32 a b) b = a ∧
    add32 a b = add32 b a ∧ mul32 a b = mul32 b a ∧ xor32 a b = xor32 b a ∧
    add32 (add32 a b) c = add32 a (add32 b c) ∧ mul32 (mul32 a b) c = mul32 a (mul32 b c) ∧
    xor32 (xor32 a b) c = xor32 a (xor32 b c) ∧
    (n.toNat < 32 → shl32 a n = mul32 a (BitVec.ofNat 32 (2 ^ n.toNat)))

/-- R106, R107, R108, R115: ADD, SUB and MUL complete in every state with the exact result modulo 2^32 in RES, and change
nothing but RES and STATUS. -/
def Obligations.AddSubMulComplete : Prop :=
  (decode 0x00000001#32 = .ok .add ∧ decode 0x00000002#32 = .ok .sub ∧ decode 0x00000003#32 = .ok .mul) ∧
  ∀ s : State,
    exec .add s = .next { s with res := BitVec.ofNat 32 (s.opa.toNat + s.opb.toNat), status := statusAfter 0 s } ∧
    exec .sub s = .next { s with res := BitVec.ofInt 32 ((s.opa.toNat : Int) - (s.opb.toNat : Int)),
                                 status := statusAfter 0 s } ∧
    exec .mul s = .next { s with res := BitVec.ofNat 32 (s.opa.toNat * s.opb.toNat), status := statusAfter 0 s }

/-- R109, R110, R115: SHL and SHR complete in every state; the amount is the whole word OPB. -/
def Obligations.ShiftsComplete : Prop :=
  (decode 0x00000004#32 = .ok .shl ∧ decode 0x00000005#32 = .ok .shr) ∧
  ∀ s : State,
    exec .shl s = .next { s with res := BitVec.ofNat 32 (s.opa.toNat * 2 ^ s.opb.toNat), status := statusAfter 0 s } ∧
    exec .shr s = .next { s with res := BitVec.ofNat 32 (s.opa.toNat / 2 ^ s.opb.toNat), status := statusAfter 0 s }

/-- R111, R115: XOR completes in every state. -/
def Obligations.XorCompletes : Prop :=
  decode 0x00000006#32 = .ok .xor ∧
  ∀ s : State, exec .xor s = .next { s with res := s.opa ^^^ s.opb, status := statusAfter 0 s }

/-! ## Round engine -/

/-- The document's encryption schedule (R122) after r rounds, written with plain word arithmetic; in round r + 1 the
accumulator is (r + 1) deltas. -/
def teaEncryptRounds (k0 k1 k2 k3 : Word) : Nat → Word × Word → Word × Word
  | 0, b => b
  | r + 1, b =>
    let p := teaEncryptRounds k0 k1 k2 k3 r b
    let sum : Word := BitVec.ofNat 32 ((r + 1) * 0x9E3779B9)
    let v0 := p.1 + (((p.2 <<< 4) + k0) ^^^ (p.2 + sum) ^^^ ((p.2 >>> 5) + k1))
    (v0, p.2 + (((v0 <<< 4) + k2) ^^^ (v0 + sum) ^^^ ((v0 >>> 5) + k3)))

/-- The document's decryption schedule (R123) after r rounds; in round r + 1 the accumulator is 0xC6EF3720 less r deltas,
that is 32 - r deltas. -/
def teaDecryptRounds (k0 k1 k2 k3 : Word) : Nat → Word × Word → Word × Word
  | 0, b => b
  | r + 1, b =>
    let p := teaDecryptRounds k0 k1 k2 k3 r b
    let sum : Word := 0xC6EF3720#32 - BitVec.ofNat 32 (r * 0x9E3779B9)
    let v1 := p.2 - (((p.1 <<< 4) + k2) ^^^ (p.1 + sum) ^^^ ((p.1 >>> 5) + k3))
    (p.1 - (((v1 <<< 4) + k0) ^^^ (v1 + sum) ^^^ ((v1 >>> 5) + k1)), v1)

/-- R122, R124: EncryptBlock is the 32-round schedule; ENCB completes in every state with the encryption of (V0, V1) in V0
and V1, and changes nothing else but STATUS. -/
def Obligations.EncbCompletes : Prop :=
  (∀ (b : Block) (k : Key), encryptBlock b k =
    ⟨(teaEncryptRounds k.k0 k.k1 k.k2 k.k3 32 (b.v0, b.v1)).1, (teaEncryptRounds k.k0 k.k1 k.k2 k.k3 32 (b.v0, b.v1)).2⟩) ∧
  decode 0x00000010#32 = .ok .encb ∧
  ∀ s : State,
    exec .encb s = .next { s with v0 := (teaEncryptRounds s.k0 s.k1 s.k2 s.k3 32 (s.v0, s.v1)).1,
                                  v1 := (teaEncryptRounds s.k0 s.k1 s.k2 s.k3 32 (s.v0, s.v1)).2,
                                  status := statusAfter 0 s }

/-- R123, R125: DecryptBlock is the 32-round schedule; DECB completes in every state with the decryption of (V0, V1) in V0
and V1, and changes nothing else but STATUS. -/
def Obligations.DecbCompletes : Prop :=
  (∀ (b : Block) (k : Key), decryptBlock b k =
    ⟨(teaDecryptRounds k.k0 k.k1 k.k2 k.k3 32 (b.v0, b.v1)).1, (teaDecryptRounds k.k0 k.k1 k.k2 k.k3 32 (b.v0, b.v1)).2⟩) ∧
  decode 0x00000011#32 = .ok .decb ∧
  ∀ s : State,
    exec .decb s = .next { s with v0 := (teaDecryptRounds s.k0 s.k1 s.k2 s.k3 32 (s.v0, s.v1)).1,
                                  v1 := (teaDecryptRounds s.k0 s.k1 s.k2 s.k3 32 (s.v0, s.v1)).2,
                                  status := statusAfter 0 s }

/-- R126: for every block and key, decryption undoes encryption and encryption undoes decryption. -/
def Obligations.CipherIsBijective : Prop :=
  ∀ (b : Block) (k : Key), decryptBlock (encryptBlock b k) k = b ∧ encryptBlock (decryptBlock b k) k = b

/-- R125, corner cases: ENCB then DECB, and DECB then ENCB, restore V0 and V1; nothing but STATUS differs after the two. -/
def Obligations.EncbDecbRoundTrip : Prop :=
  ∀ s : State,
    (∃ t, exec .encb s = .next t ∧ exec .decb t = .next { s with status := statusAfter 0 s }) ∧
    (∃ t, exec .decb s = .next t ∧ exec .encb t = .next { s with status := statusAfter 0 s })

/-! ## Framer and padder -/

/-- R14, R140: the padded length is the least multiple of m that is at least n; between 0 and m - 1 words are appended, an
aligned length stays as it is, and an empty sequence stays empty. -/
def Obligations.RoundupIsLeastMultiple : Prop :=
  ∀ n m : Nat, 0 < m →
    roundup n m % m = 0 ∧ n ≤ roundup n m ∧ (∀ k, k % m = 0 → n ≤ k → roundup n m ≤ k) ∧
      roundup n m - n ≤ m - 1 ∧ (n % m = 0 → roundup n m = n) ∧ roundup 0 m = 0

/-- R144: padding to an even length first does not change the padded length. -/
def Obligations.TwoStagePaddingIsOne : Prop :=
  ∀ n bs : Nat, 0 < bs → bs % 2 = 0 → roundup (roundup n 2) bs = roundup n bs

/-- R29: the effective block size and when it is refused. -/
def Obligations.EffectiveBlockSize : Prop :=
  ∀ s : State,
    (s.bsize.toNat = 0 → effBS s = .error .invalidBlockSize) ∧
    (s.bsize.toNat % 2 = 1 → s.ctrl.getLsbD 0 = false → effBS s = .error .invalidBlockSize) ∧
    (s.bsize.toNat % 2 = 1 → s.ctrl.getLsbD 0 = true → s.params.bsMax < s.bsize.toNat + 1 →
      effBS s = .error .invalidBlockSize) ∧
    (s.bsize.toNat % 2 = 1 → s.ctrl.getLsbD 0 = true → s.bsize.toNat + 1 ≤ s.params.bsMax →
      effBS s = .ok (s.bsize.toNat + 1)) ∧
    (s.bsize.toNat % 2 = 0 → s.params.bsMax < s.bsize.toNat → effBS s = .error .invalidBlockSize) ∧
    (s.bsize.toNat ≠ 0 → s.bsize.toNat % 2 = 0 → s.bsize.toNat ≤ s.params.bsMax → effBS s = .ok s.bsize.toNat)

/-- R141: PAD with MULT not 0 and the padded sequence in range completes; it writes PADV in the words after the sequence
up to the padded length, sets OUTLEN, and changes nothing else but STATUS. MULT = 0 raises InvalidBlockSize (code 2);
otherwise, out of range, AddressRange (code 3); nothing but STATUS changes. -/
def Obligations.PadRunsOrReports : Prop :=
  decode 0x00000020#32 = .ok .pad ∧
  ∀ s : State,
    (s.mult.toNat ≠ 0 → regionFits s s.src.toNat (roundup s.len.toNat s.mult.toNat) →
      ∃ t, exec .pad s = .next t ∧
        t = { s with mem := t.mem, outlen := BitVec.ofNat 32 (roundup s.len.toNat s.mult.toNat),
                     status := statusAfter 0 s } ∧
        (∀ a, s.src.toNat + s.len.toNat ≤ a → a < s.src.toNat + roundup s.len.toNat s.mult.toNat →
          t.mem.readWord a = some s.padv) ∧
        sameOutside (s.src.toNat + s.len.toNat) (roundup s.len.toNat s.mult.toNat - s.len.toNat) s t) ∧
    (s.mult.toNat = 0 → exec .pad s = .next { s with status := statusAfter 2 s }) ∧
    (s.mult.toNat ≠ 0 → ¬ regionFits s s.src.toNat (roundup s.len.toNat s.mult.toNat) →
      exec .pad s = .next { s with status := statusAfter 3 s })

/-- R142: SPLIT with a legal effective block size and the padded sequence in range completes; it writes zero words after
the sequence, sets OUTLEN and NBLK, and changes nothing else but STATUS. Its errors are InvalidBlockSize (code 2) before
AddressRange (code 3); nothing but STATUS changes. -/
def Obligations.SplitRunsOrReports : Prop :=
  decode 0x00000021#32 = .ok .split ∧
  ∀ s : State,
    (∀ bs, effBS s = .ok bs → regionFits s s.src.toNat (roundup s.len.toNat bs) →
      ∃ t, exec .split s = .next t ∧
        t = { s with mem := t.mem, outlen := BitVec.ofNat 32 (roundup s.len.toNat bs),
                     nblk := BitVec.ofNat 32 (roundup s.len.toNat bs / bs), status := statusAfter 0 s } ∧
        (∀ a, s.src.toNat + s.len.toNat ≤ a → a < s.src.toNat + roundup s.len.toNat bs →
          t.mem.readWord a = some 0#32) ∧
        sameOutside (s.src.toNat + s.len.toNat) (roundup s.len.toNat bs - s.len.toNat) s t) ∧
    (effBS s = .error .invalidBlockSize → exec .split s = .next { s with status := statusAfter 2 s }) ∧
    (∀ bs, effBS s = .ok bs → ¬ regionFits s s.src.toNat (roundup s.len.toNat bs) →
      exec .split s = .next { s with status := statusAfter 3 s })

/-- R143: a successful PAD or SPLIT leaves the source words as they were and pad words after them, and SPLIT leaves no
short block; the same command with LEN set to the OUTLEN it produced succeeds, writes nothing and produces the same
OUTLEN. -/
def Obligations.FramingIsIdempotent : Prop :=
  ∀ (s t : State) (i : Instr), (i = .pad ∨ i = .split) → s.params.legal →
    exec i s = .next t → t.status.getLsbD 2 = false →
    (∀ a, s.src.toNat ≤ a → a < s.src.toNat + s.len.toNat → t.mem.readWord a = s.mem.readWord a) ∧
    s.len.toNat ≤ t.outlen.toNat ∧
    (∀ a, s.src.toNat + s.len.toNat ≤ a → a < s.src.toNat + t.outlen.toNat →
      t.mem.readWord a = some (if i = .pad then s.padv else 0#32)) ∧
    (i = .split → ∀ bs, effBS s = .ok bs → t.outlen.toNat % bs = 0 ∧ t.outlen.toNat = t.nblk.toNat * bs) ∧
    ∃ u, exec i { t with len := t.outlen } = .next u ∧ u.mem = t.mem ∧ u.outlen = t.outlen ∧
      u.status.getLsbD 2 = false

/-! ## CBC chain controller -/

/-- R160: XORV with equal lengths and regions in range completes; word i of the destination is the XOR of the two words
read for i, in the order the rule gives (R69), whatever overlaps; OUTLEN is set; nothing else but STATUS changes.
Different lengths raise LengthMismatch (code 1); otherwise, out of range, AddressRange (code 3). (`draws` counts the model's
own unspecified values, log entry 2.) -/
def Obligations.XorvRunsOrReports : Prop :=
  decode 0x00000030#32 = .ok .xorv ∧
  ∀ s : State,
    (s.len.toNat = s.ivlen.toNat → regionFits s s.src.toNat s.len.toNat → regionFits s s.ivaddr.toNat s.len.toNat →
      regionFits s s.dst.toNat s.len.toNat →
      ∃ (t : State) (x y : Nat → Word), exec .xorv s = .next t ∧
        t = { s with mem := t.mem, draws := t.draws, outlen := s.len, status := statusAfter 0 s } ∧
        sameOutside s.dst.toNat s.len.toNat s t ∧
        ∀ i < s.len.toNat,
          readsAs s t s.dst.toNat i (s.src.toNat + i) (x i) ∧ readsAs s t s.dst.toNat i (s.ivaddr.toNat + i) (y i) ∧
          t.mem.readWord (s.dst.toNat + i) = some (x i ^^^ y i)) ∧
    (s.len.toNat ≠ s.ivlen.toNat → exec .xorv s = .next { s with status := statusAfter 1 s }) ∧
    (s.len.toNat = s.ivlen.toNat →
      ¬ (regionFits s s.src.toNat s.len.toNat ∧ regionFits s s.ivaddr.toNat s.len.toNat ∧
          regionFits s s.dst.toNat s.len.toNat) →
      exec .xorv s = .next { s with status := statusAfter 3 s })

/-- R161: CBCE with a legal effective block size, an IV of that length and regions in range completes. There are the
message words m it reads (0 beyond LEN; as memory has them, in the order of R69), the IV words iv read before any write,
and the ciphertext words c left at DST, such that each pair of c is the encryption of the pair of m XOR the chain value,
which is the IV at block 0 and the ciphertext block before after that (R164). OUTLEN and NBLK are set; nothing else but
STATUS changes. Its errors, in their order: InvalidBlockSize, LengthMismatch, AddressRange. (`draws` counts the model's own
unspecified values, log entry 2.) -/
def Obligations.CbceRunsOrReports : Prop :=
  decode 0x00000031#32 = .ok .cbce ∧
  ∀ s : State,
    (∀ bs, effBS s = .ok bs → s.ivlen.toNat = bs → regionFits s s.src.toNat s.len.toNat →
      regionFits s s.dst.toNat (roundup s.len.toNat bs) → regionFits s s.ivaddr.toNat bs →
      ∃ (t : State) (m iv c : Nat → Word), exec .cbce s = .next t ∧
        t = { s with mem := t.mem, draws := t.draws, outlen := BitVec.ofNat 32 (roundup s.len.toNat bs),
                     nblk := BitVec.ofNat 32 (roundup s.len.toNat bs / bs), status := statusAfter 0 s } ∧
        sameOutside s.dst.toNat (roundup s.len.toNat bs) s t ∧
        (∀ j < bs, ∀ w, s.mem.readWord (s.ivaddr.toNat + j) = some w → iv j = w) ∧
        (∀ e < s.len.toNat, readsAs s t s.dst.toNat (e / bs * bs) (s.src.toNat + e) (m e)) ∧
        (∀ e, s.len.toNat ≤ e → m e = 0#32) ∧
        (∀ f < roundup s.len.toNat bs, t.mem.readWord (s.dst.toNat + f) = some (c f)) ∧
        ∀ i < roundup s.len.toNat bs / bs, ∀ h < bs / 2,
          encryptBlock ⟨m (i * bs + 2 * h) ^^^ chainWord iv c bs i (2 * h),
              m (i * bs + 2 * h + 1) ^^^ chainWord iv c bs i (2 * h + 1)⟩ ⟨s.k0, s.k1, s.k2, s.k3⟩ =
            ⟨c (i * bs + 2 * h), c (i * bs + 2 * h + 1)⟩) ∧
    (effBS s = .error .invalidBlockSize → exec .cbce s = .next { s with status := statusAfter 2 s }) ∧
    (∀ bs, effBS s = .ok bs → s.ivlen.toNat ≠ bs → exec .cbce s = .next { s with status := statusAfter 1 s }) ∧
    (∀ bs, effBS s = .ok bs → s.ivlen.toNat = bs →
      ¬ (regionFits s s.src.toNat s.len.toNat ∧ regionFits s s.dst.toNat (roundup s.len.toNat bs) ∧
          regionFits s s.ivaddr.toNat bs) →
      exec .cbce s = .next { s with status := statusAfter 3 s })

/-- R162: CBCD with a legal effective block size, an IV of that length, a whole number of blocks and regions in range
completes. There are the ciphertext words c it reads (in the order of R69) and the IV words iv read before any write, such
that the words left at DST are the decryption of each pair of c XOR the chain value (R164). OUTLEN and NBLK are set; nothing
else but STATUS changes. Its errors, in their order: InvalidBlockSize, LengthMismatch (the IV's length, or a short final
block), AddressRange. (`draws` counts the model's own unspecified values, log entry 2.) -/
def Obligations.CbcdRunsOrReports : Prop :=
  decode 0x00000032#32 = .ok .cbcd ∧
  ∀ s : State,
    (∀ bs, effBS s = .ok bs → s.ivlen.toNat = bs → s.len.toNat % bs = 0 →
      regionFits s s.src.toNat s.len.toNat → regionFits s s.dst.toNat s.len.toNat → regionFits s s.ivaddr.toNat bs →
      ∃ (t : State) (iv c : Nat → Word), exec .cbcd s = .next t ∧
        t = { s with mem := t.mem, draws := t.draws, outlen := s.len, nblk := BitVec.ofNat 32 (s.len.toNat / bs),
                     status := statusAfter 0 s } ∧
        sameOutside s.dst.toNat s.len.toNat s t ∧
        (∀ j < bs, ∀ w, s.mem.readWord (s.ivaddr.toNat + j) = some w → iv j = w) ∧
        (∀ e < s.len.toNat, readsAs s t s.dst.toNat (e / bs * bs) (s.src.toNat + e) (c e)) ∧
        ∀ i < s.len.toNat / bs, ∀ h < bs / 2,
          t.mem.readWord (s.dst.toNat + (i * bs + 2 * h)) =
            some ((decryptBlock ⟨c (i * bs + 2 * h), c (i * bs + 2 * h + 1)⟩ ⟨s.k0, s.k1, s.k2, s.k3⟩).v0 ^^^
              chainWord iv c bs i (2 * h)) ∧
          t.mem.readWord (s.dst.toNat + (i * bs + 2 * h + 1)) =
            some ((decryptBlock ⟨c (i * bs + 2 * h), c (i * bs + 2 * h + 1)⟩ ⟨s.k0, s.k1, s.k2, s.k3⟩).v1 ^^^
              chainWord iv c bs i (2 * h + 1))) ∧
    (effBS s = .error .invalidBlockSize → exec .cbcd s = .next { s with status := statusAfter 2 s }) ∧
    (∀ bs, effBS s = .ok bs → (s.ivlen.toNat ≠ bs ∨ s.len.toNat % bs ≠ 0) →
      exec .cbcd s = .next { s with status := statusAfter 1 s }) ∧
    (∀ bs, effBS s = .ok bs → s.ivlen.toNat = bs → s.len.toNat % bs = 0 →
      ¬ (regionFits s s.src.toNat s.len.toNat ∧ regionFits s s.dst.toNat s.len.toNat ∧
          regionFits s s.ivaddr.toNat bs) →
      exec .cbcd s = .next { s with status := statusAfter 3 s })

/-- R165 (with the premise R69 makes necessary that neither command overwrites words it has still to read): CBCE in s, then
CBCD in a state u that has the same key, block size, CTRL.ODDBS_COMPAT, IV and ciphertext words, SRC at the ciphertext and
LEN the OUTLEN of CBCE, leaves the message followed by zero words. -/
def Obligations.CbcRoundTrip : Prop :=
  ∀ (s t u : State) (bs : Nat) (m iv : Nat → Word),
    s.params.legal → effBS s = .ok bs → exec .cbce s = .next t → t.status.getLsbD 2 = false →
    (∀ e < s.len.toNat, s.mem.readWord (s.src.toNat + e) = some (m e) ∧
      ¬ (s.dst.toNat ≤ s.src.toNat + e ∧ s.src.toNat + e < s.dst.toNat + e / bs * bs)) →
    (∀ j < bs, s.mem.readWord (s.ivaddr.toNat + j) = some (iv j)) →
    u.k0 = s.k0 → u.k1 = s.k1 → u.k2 = s.k2 → u.k3 = s.k3 → u.bsize = s.bsize →
    u.ctrl.getLsbD 0 = s.ctrl.getLsbD 0 → u.ivaddr = s.ivaddr → u.ivlen = s.ivlen → u.params = s.params →
    u.src = s.dst → u.len = t.outlen →
    (∀ j < bs, u.mem.readWord (u.ivaddr.toNat + j) = some (iv j)) →
    (∀ f < t.outlen.toNat, u.mem.readWord (u.src.toNat + f) = t.mem.readWord (s.dst.toNat + f) ∧
      ¬ (u.dst.toNat ≤ u.src.toNat + f ∧ u.src.toNat + f < u.dst.toNat + f / bs * bs)) →
    regionFits u u.dst.toNat t.outlen.toNat →
    ∃ v, exec .cbcd u = .next v ∧ v.status.getLsbD 2 = false ∧ v.outlen = t.outlen ∧
      t.outlen.toNat = roundup s.len.toNat bs ∧
      (∀ e < s.len.toNat, v.mem.readWord (u.dst.toNat + e) = some (m e)) ∧
      (∀ e, s.len.toNat ≤ e → e < t.outlen.toNat → v.mem.readWord (u.dst.toNat + e) = some 0#32)

/-- R166 (with the premises that CBCD's words are written, that it does not overwrite words it has still to read, and that
the flipped word is not part of the IV): flipping bit b of ciphertext word f changes the recovered words of f's cipher
pair, flips the same bit of the word one block later, and changes nothing else of the plaintext. -/
def Obligations.CbcErrorPropagation : Prop :=
  ∀ (s t t' : State) (bs f b : Nat) (w : Word),
    effBS s = .ok bs → f < s.len.toNat → b < 32 →
    (∀ e < s.len.toNat, (s.mem.readWord (s.src.toNat + e)).isSome = true ∧
      ¬ (s.dst.toNat ≤ s.src.toNat + e ∧ s.src.toNat + e < s.dst.toNat + e / bs * bs)) →
    (∀ j < bs, (s.mem.readWord (s.ivaddr.toNat + j)).isSome = true ∧ s.ivaddr.toNat + j ≠ s.src.toNat + f) →
    s.mem.readWord (s.src.toNat + f) = some w →
    exec .cbcd s = .next t → t.status.getLsbD 2 = false →
    exec .cbcd { s with mem := s.mem.writeWord (s.src.toNat + f) (w ^^^ (1#32 <<< b)) } = .next t' →
    (t'.mem.readWord (s.dst.toNat + f / 2 * 2), t'.mem.readWord (s.dst.toNat + f / 2 * 2 + 1)) ≠
      (t.mem.readWord (s.dst.toNat + f / 2 * 2), t.mem.readWord (s.dst.toNat + f / 2 * 2 + 1)) ∧
    (f + bs < s.len.toNat →
      t'.mem.readWord (s.dst.toNat + (f + bs)) =
        (t.mem.readWord (s.dst.toNat + (f + bs))).map (· ^^^ (1#32 <<< b))) ∧
    ∀ e < s.len.toNat, e / 2 ≠ f / 2 → e ≠ f + bs →
      t'.mem.readWord (s.dst.toNat + e) = t.mem.readWord (s.dst.toNat + e)

/-! ## IV generator -/

/-- R181: the default generator's step. -/
def Obligations.DefaultGeneratorIsTheLcg : Prop :=
  ∀ g : PrngState,
    (nextFn .lcg g).1.toNat = (1664525 * g.view.toNat + 1013904223) % 2 ^ 32 ∧
    (nextFn .lcg g).2.view = (nextFn .lcg g).1 ∧ ∀ w : Word, (seedFn .lcg w).view = w

/-- R184: SEED completes in every state with PRNGS = SeedFn(SEED) (the identity for the default generator), and changes
nothing else but STATUS. (`prngRest` is the model's field for what PRNGS does not show of another generator, log entry 7.) -/
def Obligations.SeedCompletes : Prop :=
  decode 0x00000040#32 = .ok .seed ∧
  ∀ s : State, ∃ t, exec .seed s = .next t ∧
    t = { s with prngs := t.prngs, prngRest := t.prngRest, status := statusAfter 0 s } ∧
    (⟨t.prngs, t.prngRest⟩ : PrngState) = seedFn s.params.prng s.seed ∧ (s.params.prng = .lcg → t.prngs = s.seed)

/-- R182, R185: GENIV, with either value of R, with the destination in range completes. There are the generator states g,
from SeedFn(SEED) when R = 1 and from the current state otherwise, such that word i of the destination is the value of
step i put in range by CTRL.IV_LEGACY, and the state after LEN steps is left in PRNGS; OUTLEN is set; nothing else but
STATUS changes. Out of range it raises AddressRange (code 3), and PRNGS is unchanged, even with R = 1. (`prngRest` is the
model's field for what PRNGS does not show of another generator, log entry 7.) -/
def Obligations.GenivRunsOrReports : Prop :=
  (decode 0x00000041#32 = .ok (.geniv false) ∧ decode 0x00000141#32 = .ok (.geniv true)) ∧
  ∀ (s : State) (r : Bool),
    (regionFits s s.dst.toNat s.len.toNat →
      ∃ (t : State) (g : Nat → PrngState), exec (.geniv r) s = .next t ∧
        t = { s with mem := t.mem, prngs := (g s.len.toNat).view, prngRest := (g s.len.toNat).rest, outlen := s.len,
                     status := statusAfter 0 s } ∧
        sameOutside s.dst.toNat s.len.toNat s t ∧
        g 0 = (if r then seedFn s.params.prng s.seed else ⟨s.prngs, s.prngRest⟩) ∧
        ∀ i < s.len.toNat,
          (nextFn s.params.prng (g i)).2 = g (i + 1) ∧
          t.mem.readWord (s.dst.toNat + i) =
            some (if s.ctrl.getLsbD 1 then BitVec.ofNat 32 ((nextFn s.params.prng (g i)).1.toNat % 34)
              else (nextFn s.params.prng (g i)).1)) ∧
    (¬ regionFits s s.dst.toNat s.len.toNat → exec (.geniv r) s = .next { s with status := statusAfter 3 s })

/-- R188: two GENIVs under one P_PRNG that start from the same generator state (or the same SEED with R = 1) with the same
LEN and CTRL.IV_LEGACY write the same words and leave the same generator state. -/
def Obligations.GenivIsDeterministic : Prop :=
  ∀ (s s' t t' : State) (r : Bool),
    s'.params.prng = s.params.prng → s'.len = s.len → s'.ctrl.getLsbD 1 = s.ctrl.getLsbD 1 →
    (if r then s'.seed = s.seed else s'.prngs = s.prngs ∧ s'.prngRest = s.prngRest) →
    exec (.geniv r) s = .next t → exec (.geniv r) s' = .next t' →
    t.status.getLsbD 2 = false → t'.status.getLsbD 2 = false →
    t'.prngs = t.prngs ∧ t'.prngRest = t.prngRest ∧
    ∀ i < s.len.toNat, t'.mem.readWord (s'.dst.toNat + i) = t.mem.readWord (s.dst.toNat + i)

/-- R185: "successive GENIVs give successive parts of one stream": a GENIV of n words and then one of k words where the
first ended leave the words and the generator state of one GENIV of n + k words. -/
def Obligations.GenivContinuesTheStream : Prop :=
  ∀ (s t w : State) (r : Bool) (dst' len' total : Word),
    s.params.legal → dst'.toNat = s.dst.toNat + s.len.toNat → total.toNat = s.len.toNat + len'.toNat →
    regionFits s s.dst.toNat total.toNat →
    exec (.geniv r) s = .next t → exec (.geniv r) { s with len := total } = .next w →
    ∃ v, exec (.geniv false) { t with dst := dst', len := len' } = .next v ∧
      v.prngs = w.prngs ∧ v.prngRest = w.prngRest ∧
      ∀ i < total.toNat, v.mem.readWord (s.dst.toNat + i) = w.mem.readWord (s.dst.toNat + i)

/-! ## Completion and errors of every command -/

/-- The error codes a command can complete with (R202, column "raised by"). -/
def errorCodes : Instr → List Nat
  | .add | .sub | .mul | .shl | .shr | .xor | .encb | .decb | .seed => []
  | .pad | .split => [2, 3]
  | .xorv => [1, 3]
  | .cbce | .cbcd => [1, 2, 3]
  | .geniv _ => [3]

/-- R26, R202: every command completes in every state, with result code 0 or one of the codes the table gives the command,
and STATUS as R26 says. -/
def Obligations.EveryCommandCompletes : Prop :=
  ∀ (i : Instr) (s : State), ∃ t c, exec i s = .next t ∧ (c = 0 ∨ c ∈ errorCodes i) ∧ t.status = statusAfter c s

/-- R200: a command that completes with an error has changed nothing but STATUS. -/
def Obligations.ErrorsChangeOnlyStatus : Prop :=
  ∀ (i : Instr) (s t : State), exec i s = .next t → t.status.getLsbD 2 = true → t = { s with status := t.status }

/-- R28, R30, R31, R36, R37 ("No command writes ..."): no command writes the latched word, CTRL, BSIZE, an address or
length register, PADV, MULT, OPA, OPB, the key or SEED; nor do the parameters or the host's side change. -/
def Obligations.NoCommandWritesHostRegisters : Prop :=
  ∀ (i : Instr) (s t : State), exec i s = .next t →
    t.cmd = s.cmd ∧ t.ctrl = s.ctrl ∧ t.bsize = s.bsize ∧ t.src = s.src ∧ t.dst = s.dst ∧ t.len = s.len ∧
    t.ivaddr = s.ivaddr ∧ t.ivlen = s.ivlen ∧ t.padv = s.padv ∧ t.mult = s.mult ∧ t.opa = s.opa ∧ t.opb = s.opb ∧
    t.k0 = s.k0 ∧ t.k1 = s.k1 ∧ t.k2 = s.k2 ∧ t.k3 = s.k3 ∧ t.seed = s.seed ∧
    t.params = s.params ∧ t.events = s.events ∧ t.rdata = s.rdata

/-- R32 to R35, R38, R86: OUTLEN, NBLK, RES, V0, V1 and PRNGS are written only by the commands the rules name, and the
buffer memory only by PAD, SPLIT, XORV, CBCE, CBCD and GENIV. -/
def Obligations.ResultRegistersHaveTheirWriters : Prop :=
  ∀ (i : Instr) (s t : State), exec i s = .next t →
    (i ∉ [.add, .sub, .mul, .shl, .shr, .xor] → t.res = s.res) ∧
    (i ∉ [.encb, .decb] → t.v0 = s.v0 ∧ t.v1 = s.v1) ∧
    (i ∉ [.pad, .split, .xorv, .cbce, .cbcd, .geniv false, .geniv true] → t.outlen = s.outlen ∧ sameMemory s t) ∧
    (i ∉ [.split, .cbce, .cbcd] → t.nblk = s.nblk) ∧
    (i ∉ [.seed, .geniv false, .geniv true] → t.prngs = s.prngs ∧ t.prngRest = s.prngRest)

/-! ## Steps, the host and reset

In the statements of this section the fields `draws`, `events` and `rdata`, and so what a clause says of them (an event is
used up, the engine has the turn when none is left, an idle turn changes nothing), are the model's own choices: log entries
2, 3, 8 and 10. -/

/-- R201: while a command is pending, the engine's turn is exec of the command its word decodes to, whether the turn is an
event or the events are used up (the event list is the model's choice, log entry 3). -/
def Obligations.StepRunsTheDecodedCommand : Prop :=
  ∀ (s : State) (i : Instr), s.status.getLsbD 0 = true → decode s.cmd = .ok i →
    (s.events = [] → step s = exec i s) ∧
    (∀ es, s.events = .engine :: es → step s = exec i { s with events := es })

/-- R84: a pending word that encodes no command completes with IllegalCommand (code 4) and changes nothing but STATUS. That
the engine has the turn when no event is left, and that an engine event is used up, is the model's choice (log entry 3). -/
def Obligations.IllegalWordsCompleteWithCodeFour : Prop :=
  ∀ s : State, s.status.getLsbD 0 = true → legalWord s.cmd = false →
    (s.events = [] → step s = .next { s with status := statusAfter 4 s }) ∧
    (∀ es, s.events = .engine :: es → step s = .next { s with events := es, status := statusAfter 4 s })

/-- R221: "Every register and buffer word keeps its value while idle": an engine turn of an idle block changes nothing. -/
def Obligations.IdleEngineChangesNothing : Prop :=
  ∀ s : State, s.status.getLsbD 0 = false →
    (s.events = [] → step s = .next s) ∧ (∀ es, s.events = .engine :: es → step s = .next { s with events := es })

/-- R23, R25: a host write of any value to CMD while idle latches it and sets STATUS to BUSY alone; nothing else changes
(but the event list, the model's choice, log entry 3). -/
def Obligations.CmdWriteIsAccepted : Prop :=
  ∀ (s : State) (es : List BusEvent) (v : Word), s.status.getLsbD 0 = false →
    s.events = .write (s.params.base + 0x000) 4 v :: es →
    step s = .next { s with events := es, cmd := v, status := 0x00000001#32 }

/-- R201, R243: from idle, the host's write of a command word and the engine's next turn run the command on the state as it
stood, with STATUS showing BUSY. -/
def Obligations.AcceptedCommandRuns : Prop :=
  ∀ (s : State) (es : List BusEvent) (i : Instr), s.status.getLsbD 0 = false →
    s.events = .write (s.params.base + 0x000) 4 (encode i) :: .engine :: es →
    ∃ t, step s = .next t ∧ step t = exec i { s with events := es, cmd := encode i, status := 0x00000001#32 }

/-- R240: a host write while BUSY = 1, to any offset of the aperture, changes nothing but STATUS.OVR, which it sets (and the
event list, the model's choice, log entry 3). -/
def Obligations.WriteWhileBusyIsDropped : Prop :=
  ∀ (s : State) (es : List BusEvent) (o : Nat) (v : Word), s.status.getLsbD 0 = true →
    o % 4 = 0 → o < 0x1000 + 4 * s.params.memWords →
    s.events = .write (s.params.base + o) 4 v :: es →
    step s = .next { s with events := es, status := s.status ||| 0x00000008#32 }

/-- R241: a host read of STATUS while BUSY = 1 returns STATUS; a read of any other offset returns some value; neither
changes anything but what is the model's own: `draws` (log entry 2), `events` (log entry 3) and `rdata` (log entry 8). -/
def Obligations.ReadWhileBusy : Prop :=
  ∀ (s : State) (es : List BusEvent) (o : Nat), s.status.getLsbD 0 = true →
    o % 4 = 0 → o < 0x1000 + 4 * s.params.memWords →
    s.events = .read (s.params.base + o) 4 :: es →
    (o = 0x004 → step s = .next { s with events := es, rdata := s.status &&& 0x000000FF#32 }) ∧
    (o ≠ 0x004 → ∃ t, step s = .next t ∧ t = { s with events := es, rdata := t.rdata, draws := t.draws })

/-- What an idle host read of each register of R22 shows: CMD reads 0 (R23), the reserved bits of STATUS and CTRL read 0
(R24, R27), every other register reads as it stands. -/
def shownRegisters (s : State) : List (Nat × Word) :=
  [(0x000, 0#32), (0x004, s.status &&& 0x000000FF#32), (0x008, s.ctrl &&& 0x00000003#32), (0x00C, s.bsize),
   (0x010, s.src), (0x014, s.dst), (0x018, s.len), (0x01C, s.ivaddr), (0x020, s.ivlen), (0x024, s.padv),
   (0x028, s.mult), (0x02C, s.outlen), (0x030, s.nblk), (0x034, s.opa), (0x038, s.opb), (0x03C, s.res),
   (0x040, s.v0), (0x044, s.v1), (0x048, s.k0), (0x04C, s.k1), (0x050, s.k2), (0x054, s.k3), (0x058, s.seed),
   (0x05C, s.prngs)]

/-- R22, R23, R24, R27, R40: an idle host read of a register returns what the register shows and changes nothing. -/
def Obligations.IdleReadOfRegister : Prop :=
  ∀ (s : State) (es : List BusEvent) (o : Nat) (v : Word), s.status.getLsbD 0 = false → (o, v) ∈ shownRegisters s →
    s.events = .read (s.params.base + o) 4 :: es → step s = .next { s with events := es, rdata := v }

/-- The state after an idle host write of v to each register of R22 but CMD and PRNGS: CTRL keeps its two implemented bits
(R27), the read-only registers keep their value (R40), every other register takes v. -/
def writtenRegisters (s : State) (v : Word) : List (Nat × State) :=
  [(0x004, s), (0x008, { s with ctrl := v &&& 0x00000003#32 }), (0x00C, { s with bsize := v }),
   (0x010, { s with src := v }), (0x014, { s with dst := v }), (0x018, { s with len := v }),
   (0x01C, { s with ivaddr := v }), (0x020, { s with ivlen := v }), (0x024, { s with padv := v }),
   (0x028, { s with mult := v }), (0x02C, s), (0x030, s), (0x034, { s with opa := v }), (0x038, { s with opb := v }),
   (0x03C, s), (0x040, { s with v0 := v }), (0x044, { s with v1 := v }), (0x048, { s with k0 := v }),
   (0x04C, { s with k1 := v }), (0x050, { s with k2 := v }), (0x054, { s with k3 := v }), (0x058, { s with seed := v })]

/-- R22, R27, R40: an idle host write of a register other than CMD has that register's effect and no other. PRNGS takes the
value too. The model's choices here, and no rule of the spec: that PRNGS takes the value as written under a generator wider
than 32 bits, where what it accepts is OPEN (D15), and that under the default generator `prngRest` stays as it is (both log
entry 7); and that the event is used up (log entry 3). -/
def Obligations.IdleWriteOfRegister : Prop :=
  ∀ (s : State) (es : List BusEvent) (o : Nat) (v : Word), s.status.getLsbD 0 = false →
    s.events = .write (s.params.base + o) 4 v :: es →
    (∀ t, (o, t) ∈ writtenRegisters s v → step s = .next { t with events := es }) ∧
    (o = 0x05C → ∃ t, step s = .next t ∧ t = { s with events := es, prngs := v, prngRest := t.prngRest } ∧
      (s.params.prng = .lcg → t.prngRest = s.prngRest))

/-- R39: offsets 0x060 to 0xFFF hold no register: an idle read returns 0, an idle write is ignored, and a write while busy
still sets STATUS.OVR (the event list and the read port are the model's own, log entries 3 and 8). -/
def Obligations.UnmappedOffsets : Prop :=
  ∀ (s : State) (es : List BusEvent) (o : Nat), o % 4 = 0 → 0x060 ≤ o → o < 0x1000 →
    (s.status.getLsbD 0 = false → s.events = .read (s.params.base + o) 4 :: es →
      step s = .next { s with events := es, rdata := 0#32 }) ∧
    (∀ v, s.status.getLsbD 0 = false → s.events = .write (s.params.base + o) 4 v :: es →
      step s = .next { s with events := es }) ∧
    (∀ v, s.status.getLsbD 0 = true → s.events = .write (s.params.base + o) 4 v :: es →
      step s = .next { s with events := es, status := s.status ||| 0x00000008#32 })

/-- R63, R67: an idle host write of buffer word a changes that word alone, and an idle host read of a written word returns
it and changes nothing; a read of a word not written since reset returns some value (R70). -/
def Obligations.IdleAccessOfBufferWord : Prop :=
  ∀ (s : State) (es : List BusEvent) (a : Nat), s.status.getLsbD 0 = false → a < s.params.memWords →
    (∀ v, s.events = .write (s.params.base + (0x1000 + 4 * a)) 4 v :: es →
      ∃ t, step s = .next t ∧ t = { s with events := es, mem := t.mem } ∧ t.mem.readWord a = some v ∧
        sameOutside a 1 s t) ∧
    (s.events = .read (s.params.base + (0x1000 + 4 * a)) 4 :: es →
      (∀ w, s.mem.readWord a = some w → step s = .next { s with events := es, rdata := w }) ∧
      (∃ t, step s = .next t ∧ t = { s with events := es, rdata := t.rdata, draws := t.draws }))

/-- R60, R62, I11, I12: an access that is not one whole aligned word within the aperture is refused. -/
def Obligations.AccessesOutsideTheInterfaceAreRefused : Prop :=
  ∀ (s : State) (es : List BusEvent) (addr width : Nat) (v : Word),
    (s.events = .read addr width :: es ∨ s.events = .write addr width v :: es) →
    ((addr < s.params.base ∨ s.params.base + 0x1000 + 4 * s.params.memWords ≤ addr) →
      step s = .refused .outsideAperture) ∧
    (s.params.base ≤ addr → addr < s.params.base + 0x1000 + 4 * s.params.memWords →
      (width ≠ 4 ∨ (addr - s.params.base) % 4 ≠ 0) → step s = .refused .notAWordAccess)

/-- R230, R231, R232: a reset event, whatever the state, leaves every register 0 and every buffer word unwritten, no
command pending. That the parameters and the events still to come stay as they are is the model's choice (log entry 14),
and that a reset is an event of the list is too (log entry 3). -/
def Obligations.ResetClearsTheBlock : Prop :=
  ∀ (s : State) (es : List BusEvent), s.events = .reset :: es →
    ∃ t, step s = .next t ∧ (∀ o v, (o, v) ∈ shownRegisters t → v = 0#32) ∧
      t.cmd = 0#32 ∧ t.status = 0#32 ∧ t.ctrl = 0#32 ∧ (∀ k, t.mem.readByte k = none) ∧
      t.params = s.params ∧ t.events = es

/-- R22 (column "reset"): in the reset state every register is 0 and no buffer word has a value. -/
def Obligations.ResetStateIsClear : Prop :=
  (∀ o v, (o, v) ∈ shownRegisters State.reset → v = 0#32) ∧ State.reset.cmd = 0#32 ∧ State.reset.status = 0#32 ∧
    State.reset.ctrl = 0#32 ∧ (∀ a, State.reset.mem.readWord a = none) ∧ State.reset.params.legal ∧
    State.reset.params.memWords = 1024 ∧ State.reset.params.bsMax = 64 ∧ State.reset.params.prng = .lcg

/-- R240, R241, R36: while a command runs, nothing the host does (a read or a write, wherever) changes anything of the
block but STATUS.OVR; in particular the key and every operand stay as they were at acceptance. -/
def Obligations.OperandsAreFixedWhileBusy : Prop :=
  ∀ (s t : State) (es : List BusEvent) (addr width : Nat) (v : Word), s.status.getLsbD 0 = true →
    (s.events = .read addr width :: es ∨ s.events = .write addr width v :: es) → step s = .next t →
    t = { s with status := t.status, events := es, rdata := t.rdata, draws := t.draws } ∧
      (t.status = s.status ∨ t.status = s.status ||| 0x00000008#32)

/-- R67: a host read, idle or busy, changes no state of the block. -/
def Obligations.ReadsHaveNoSideEffect : Prop :=
  ∀ (s t : State) (es : List BusEvent) (addr width : Nat), s.events = .read addr width :: es → step s = .next t →
    t = { s with events := es, rdata := t.rdata, draws := t.draws }

/-! ## Invariants -/

/-- The invariants hold at reset. -/
def Obligations.InvariantsHoldAtReset : Prop :=
  MemoryInv State.reset ∧ StatusInv State.reset ∧ RegisterInv State.reset

/-- Every step, of the engine, of the host or a reset, keeps the buffer memory canonical, whole and within its range (R60,
R64, R66). -/
def Obligations.EveryStepKeepsMemoryInv : Prop := ∀ s t : State, MemoryInv s → step s = .next t → MemoryInv t

/-- Every step keeps STATUS as R24, R202 and I14 say it can be: BUSY and DONE never hold together, ERRCODE is at most 4, ERR
tells whether it is 0, reserved bits are 0. -/
def Obligations.EveryStepKeepsStatusInv : Prop := ∀ s t : State, StatusInv s → step s = .next t → StatusInv t

/-- Every step keeps CTRL's reserved bits 0 (R27) and OUTLEN and NBLK within the buffer memory's size (R32, R33). -/
def Obligations.EveryStepKeepsRegisterInv : Prop := ∀ s t : State, RegisterInv s → step s = .next t → RegisterInv t

/-- R60, R62: a run in which every bus event is part of the interface never stops, however long it is and whatever
commands it holds. -/
def Obligations.LegalRunsNeverStop : Prop :=
  ∀ (k : Nat) (s : State), (∀ e ∈ s.events, eventLegal s.params e) → safeRun k s

/-- R65: the serialised form of a word is its four bytes, most significant first. -/
def Obligations.SerialisedBigEndian : Prop :=
  ∀ w : Word, ∃ b0 b1 b2 b3 : Byte, serializeWord w = [b0, b1, b2, b3] ∧
    w.toNat = b0.toNat * 2 ^ 24 + b1.toNat * 2 ^ 16 + b2.toNat * 2 ^ 8 + b3.toNat
end

