-- ==== Sys2Proof/Laws/Memory.lean ====
section
/-! SUPPORT. The laws of the buffer memory: read over write for bytes and words, and what every write keeps (the canonical
form, words listed whole, everything inside the buffer). -/
namespace Sys2Proof.Machine

/-! ## Bytes -/

theorem Memory.readByte_writeByte_same (m : Memory) (a : Nat) (b : Byte) :
    (m.writeByte a b).readByte a = some b := by
  induction m with
  | nil => simp [writeByte, readByte]
  | cons c rest ih =>
    obtain ⟨k, c⟩ := c
    simp only [writeByte]
    split
    · simp [readByte]
    · split
      · simp [readByte]
      · simp [readByte, ih, show ¬ k = a by omega]

theorem Memory.readByte_writeByte_ne (m : Memory) {a a' : Nat} (b : Byte) (h : a' ≠ a) :
    (m.writeByte a b).readByte a' = m.readByte a' := by
  induction m with
  | nil => simp [writeByte, readByte, Ne.symm h]
  | cons c rest ih =>
    obtain ⟨k, c⟩ := c
    simp only [writeByte]
    split
    · simp [readByte, Ne.symm h]
    · split
      · subst_vars; simp [readByte, Ne.symm h]
      · simp [readByte, ih]

theorem Memory.readByte_writeByte (m : Memory) (a a' : Nat) (b : Byte) :
    (m.writeByte a b).readByte a' = if a' = a then some b else m.readByte a' := by
  split
  · subst_vars; exact readByte_writeByte_same ..
  · exact readByte_writeByte_ne _ _ ‹_›

/-- The cells after a write: the written one, and cells that were there. -/
theorem Memory.mem_writeByte {m : Memory} {a : Nat} {b : Byte} {c : Host.Cell} (h : c ∈ m.writeByte a b) :
    c = (a, b) ∨ c ∈ m := by
  induction m with
  | nil => simpa [writeByte] using h
  | cons d rest ih =>
    obtain ⟨k, d⟩ := d
    simp only [writeByte] at h
    split at h
    · simpa using h
    · split at h
      · simp only [List.mem_cons] at h ⊢; tauto
      · simp only [List.mem_cons] at h ⊢
        rcases h with h | h
        · exact .inr (.inl h)
        · rcases ih h with h | h
          · exact .inl h
          · exact .inr (.inr h)

theorem Memory.writeByte_wf {m : Memory} (a : Nat) (b : Byte) (h : m.wf) : (m.writeByte a b).wf := by
  induction m with
  | nil => simp [writeByte, wf]
  | cons d rest ih =>
    obtain ⟨k, d⟩ := d
    obtain ⟨hk, hrest⟩ := List.pairwise_cons.1 h
    simp only [writeByte]
    split
    · refine List.pairwise_cons.2 ⟨?_, h⟩
      intro c hc
      rcases List.mem_cons.1 hc with rfl | hc
      · assumption
      · exact Nat.lt_trans ‹_› (hk c hc)
    · split
      · subst_vars; exact List.pairwise_cons.2 ⟨hk, hrest⟩
      · refine List.pairwise_cons.2 ⟨?_, ih hrest⟩
        intro c hc
        rcases mem_writeByte hc with rfl | hc
        · simp only; omega
        · exact hk c hc

/-! ## Words -/

theorem wordOfBytes_wordByte (w : Word) :
    wordOfBytes (wordByte w 0) (wordByte w 1) (wordByte w 2) (wordByte w 3) = w := by
  apply BitVec.eq_of_getLsbD_eq
  intro i hi
  simp only [wordOfBytes, wordByte, BitVec.getLsbD_append, BitVec.getLsbD_extractLsb']
  have : i < 8 ∨ (8 ≤ i ∧ i < 16) ∨ (16 ≤ i ∧ i < 24) ∨ (24 ≤ i ∧ i < 32) := by omega
  rcases this with h | ⟨h, h'⟩ | ⟨h, h'⟩ | ⟨h, h'⟩
  · simp [h]
  · simp [show ¬ i < 8 by omega, show i - 8 < 8 by omega, show 8 + (i - 8) = i by omega]
  · simp [show ¬ i < 8 by omega, show ¬ i - 8 < 8 by omega, show i - 8 - 8 < 8 by omega,
      show 16 + (i - 8 - 8) = i by omega]
  · simp [show ¬ i < 8 by omega, show ¬ i - 8 < 8 by omega, show ¬ i - 8 - 8 < 8 by omega,
      show i - 8 - 8 - 8 < 8 by omega, show 24 + (i - 8 - 8 - 8) = i by omega]

/-- Which byte of the memory a word write leaves at an offset. -/
theorem Memory.readByte_writeWord (m : Memory) (a k : Nat) (w : Word) :
    (m.writeWord a w).readByte k =
      if k = bufferOffset a + 3 then some (wordByte w 3)
      else if k = bufferOffset a + 2 then some (wordByte w 2)
      else if k = bufferOffset a + 1 then some (wordByte w 1)
      else if k = bufferOffset a then some (wordByte w 0)
      else m.readByte k := by
  simp only [writeWord, readByte_writeByte]

/-- A word write leaves every byte outside its four as it was. -/
theorem Memory.readByte_writeWord_outside (m : Memory) {a k : Nat} (w : Word)
    (h : k < bufferOffset a ∨ bufferOffset a + 4 ≤ k) : (m.writeWord a w).readByte k = m.readByte k := by
  rw [readByte_writeWord, if_neg (by omega), if_neg (by omega), if_neg (by omega), if_neg (by omega)]

@[simp] theorem Memory.readWord_writeWord_same (m : Memory) (a : Nat) (w : Word) :
    (m.writeWord a w).readWord a = some w := by
  simp [readWord, readByte_writeWord, wordOfBytes_wordByte]

theorem Memory.readWord_writeWord_ne (m : Memory) {a a' : Nat} (w : Word) (h : a' ≠ a) :
    (m.writeWord a w).readWord a' = m.readWord a' := by
  have e : ∀ j < 4, (m.writeWord a w).readByte (bufferOffset a' + j) = m.readByte (bufferOffset a' + j) := by
    intro j hj
    apply readByte_writeWord_outside
    unfold bufferOffset; omega
  have e0 := e 0 (by omega)
  rw [Nat.add_zero] at e0
  simp only [readWord, e0, e 1 (by omega), e 2 (by omega), e 3 (by omega)]

theorem Memory.readWord_writeWord (m : Memory) (a a' : Nat) (w : Word) :
    (m.writeWord a w).readWord a' = if a' = a then some w else m.readWord a' := by
  split
  · subst_vars; simp
  · exact readWord_writeWord_ne _ _ ‹_›

/-- A word reads the same when its four bytes do. -/
theorem Memory.readWord_congr {m m' : Memory} {a : Nat}
    (h : ∀ k, bufferOffset a ≤ k → k < bufferOffset a + 4 → m'.readByte k = m.readByte k) :
    m'.readWord a = m.readWord a := by
  simp only [readWord, h _ (Nat.le_refl _) (by omega), h (bufferOffset a + 1) (by omega) (by omega),
    h (bufferOffset a + 2) (by omega) (by omega), h (bufferOffset a + 3) (by omega) (by omega)]

theorem Memory.writeWord_wf {m : Memory} (a : Nat) (w : Word) (h : m.wf) : (m.writeWord a w).wf :=
  writeByte_wf _ _ (writeByte_wf _ _ (writeByte_wf _ _ (writeByte_wf _ _ h)))

/-- The cells after a word write: four at the word's offsets, and cells that were there. -/
theorem Memory.mem_writeWord {m : Memory} {a : Nat} {w : Word} {c : Host.Cell} (h : c ∈ m.writeWord a w) :
    (bufferOffset a ≤ c.1 ∧ c.1 < bufferOffset a + 4) ∨ c ∈ m := by
  simp only [writeWord] at h
  rcases mem_writeByte h with rfl | h
  · simp only; left; omega
  rcases mem_writeByte h with rfl | h
  · simp only; left; omega
  rcases mem_writeByte h with rfl | h
  · simp only; left; omega
  rcases mem_writeByte h with rfl | h
  · simp only; left; omega
  exact .inr h

theorem Memory.writeWord_within {m : Memory} {n a : Nat} (w : Word) (ha : a < n) (h : m.within n) :
    (m.writeWord a w).within n := by
  intro c hc
  rcases mem_writeWord hc with hc | hc
  · unfold bufferOffset at hc; omega
  · exact h c hc

theorem Memory.writeWord_whole {m : Memory} (a : Nat) (w : Word) (h : m.whole) : (m.writeWord a w).whole := by
  intro c hc j hj
  rw [readByte_writeWord]
  by_cases hin : bufferOffset a ≤ c.1 ∧ c.1 < bufferOffset a + 4
  · have : c.1 / 4 * 4 = bufferOffset a := by unfold bufferOffset at hin ⊢; omega
    rw [this]
    have : j = 0 ∨ j = 1 ∨ j = 2 ∨ j = 3 := by omega
    rcases this with rfl | rfl | rfl | rfl <;> simp
  · rcases mem_writeWord hc with hc | hc
    · exact absurd hc hin
    · split; · rfl
      split; · rfl
      split; · rfl
      split; · rfl
      exact h c hc j hj

end Sys2Proof.Machine
end

