-- ==== Sys2Proof/Laws/State.lean ====
section
/-! SUPPORT. What each named update of the state does to each field, true by rfl, so that no proof unfolds a record update. -/
namespace Sys2Proof.Machine

/-! ## State.setCmd -/

@[simp] theorem State.setCmd_cmd (s : State) (w : Word) : (s.setCmd w).cmd = w := rfl
@[simp] theorem State.setCmd_status (s : State) (w : Word) : (s.setCmd w).status = s.status := rfl
@[simp] theorem State.setCmd_ctrl (s : State) (w : Word) : (s.setCmd w).ctrl = s.ctrl := rfl
@[simp] theorem State.setCmd_bsize (s : State) (w : Word) : (s.setCmd w).bsize = s.bsize := rfl
@[simp] theorem State.setCmd_src (s : State) (w : Word) : (s.setCmd w).src = s.src := rfl
@[simp] theorem State.setCmd_dst (s : State) (w : Word) : (s.setCmd w).dst = s.dst := rfl
@[simp] theorem State.setCmd_len (s : State) (w : Word) : (s.setCmd w).len = s.len := rfl
@[simp] theorem State.setCmd_ivaddr (s : State) (w : Word) : (s.setCmd w).ivaddr = s.ivaddr := rfl
@[simp] theorem State.setCmd_ivlen (s : State) (w : Word) : (s.setCmd w).ivlen = s.ivlen := rfl
@[simp] theorem State.setCmd_padv (s : State) (w : Word) : (s.setCmd w).padv = s.padv := rfl
@[simp] theorem State.setCmd_mult (s : State) (w : Word) : (s.setCmd w).mult = s.mult := rfl
@[simp] theorem State.setCmd_outlen (s : State) (w : Word) : (s.setCmd w).outlen = s.outlen := rfl
@[simp] theorem State.setCmd_nblk (s : State) (w : Word) : (s.setCmd w).nblk = s.nblk := rfl
@[simp] theorem State.setCmd_opa (s : State) (w : Word) : (s.setCmd w).opa = s.opa := rfl
@[simp] theorem State.setCmd_opb (s : State) (w : Word) : (s.setCmd w).opb = s.opb := rfl
@[simp] theorem State.setCmd_res (s : State) (w : Word) : (s.setCmd w).res = s.res := rfl
@[simp] theorem State.setCmd_v0 (s : State) (w : Word) : (s.setCmd w).v0 = s.v0 := rfl
@[simp] theorem State.setCmd_v1 (s : State) (w : Word) : (s.setCmd w).v1 = s.v1 := rfl
@[simp] theorem State.setCmd_k0 (s : State) (w : Word) : (s.setCmd w).k0 = s.k0 := rfl
@[simp] theorem State.setCmd_k1 (s : State) (w : Word) : (s.setCmd w).k1 = s.k1 := rfl
@[simp] theorem State.setCmd_k2 (s : State) (w : Word) : (s.setCmd w).k2 = s.k2 := rfl
@[simp] theorem State.setCmd_k3 (s : State) (w : Word) : (s.setCmd w).k3 = s.k3 := rfl
@[simp] theorem State.setCmd_seed (s : State) (w : Word) : (s.setCmd w).seed = s.seed := rfl
@[simp] theorem State.setCmd_prngs (s : State) (w : Word) : (s.setCmd w).prngs = s.prngs := rfl
@[simp] theorem State.setCmd_mem (s : State) (w : Word) : (s.setCmd w).mem = s.mem := rfl
@[simp] theorem State.setCmd_params (s : State) (w : Word) : (s.setCmd w).params = s.params := rfl
@[simp] theorem State.setCmd_prngRest (s : State) (w : Word) : (s.setCmd w).prngRest = s.prngRest := rfl
@[simp] theorem State.setCmd_draws (s : State) (w : Word) : (s.setCmd w).draws = s.draws := rfl
@[simp] theorem State.setCmd_events (s : State) (w : Word) : (s.setCmd w).events = s.events := rfl
@[simp] theorem State.setCmd_rdata (s : State) (w : Word) : (s.setCmd w).rdata = s.rdata := rfl

/-! ## State.setStatus -/

@[simp] theorem State.setStatus_cmd (s : State) (w : Word) : (s.setStatus w).cmd = s.cmd := rfl
@[simp] theorem State.setStatus_status (s : State) (w : Word) : (s.setStatus w).status = w := rfl
@[simp] theorem State.setStatus_ctrl (s : State) (w : Word) : (s.setStatus w).ctrl = s.ctrl := rfl
@[simp] theorem State.setStatus_bsize (s : State) (w : Word) : (s.setStatus w).bsize = s.bsize := rfl
@[simp] theorem State.setStatus_src (s : State) (w : Word) : (s.setStatus w).src = s.src := rfl
@[simp] theorem State.setStatus_dst (s : State) (w : Word) : (s.setStatus w).dst = s.dst := rfl
@[simp] theorem State.setStatus_len (s : State) (w : Word) : (s.setStatus w).len = s.len := rfl
@[simp] theorem State.setStatus_ivaddr (s : State) (w : Word) : (s.setStatus w).ivaddr = s.ivaddr := rfl
@[simp] theorem State.setStatus_ivlen (s : State) (w : Word) : (s.setStatus w).ivlen = s.ivlen := rfl
@[simp] theorem State.setStatus_padv (s : State) (w : Word) : (s.setStatus w).padv = s.padv := rfl
@[simp] theorem State.setStatus_mult (s : State) (w : Word) : (s.setStatus w).mult = s.mult := rfl
@[simp] theorem State.setStatus_outlen (s : State) (w : Word) : (s.setStatus w).outlen = s.outlen := rfl
@[simp] theorem State.setStatus_nblk (s : State) (w : Word) : (s.setStatus w).nblk = s.nblk := rfl
@[simp] theorem State.setStatus_opa (s : State) (w : Word) : (s.setStatus w).opa = s.opa := rfl
@[simp] theorem State.setStatus_opb (s : State) (w : Word) : (s.setStatus w).opb = s.opb := rfl
@[simp] theorem State.setStatus_res (s : State) (w : Word) : (s.setStatus w).res = s.res := rfl
@[simp] theorem State.setStatus_v0 (s : State) (w : Word) : (s.setStatus w).v0 = s.v0 := rfl
@[simp] theorem State.setStatus_v1 (s : State) (w : Word) : (s.setStatus w).v1 = s.v1 := rfl
@[simp] theorem State.setStatus_k0 (s : State) (w : Word) : (s.setStatus w).k0 = s.k0 := rfl
@[simp] theorem State.setStatus_k1 (s : State) (w : Word) : (s.setStatus w).k1 = s.k1 := rfl
@[simp] theorem State.setStatus_k2 (s : State) (w : Word) : (s.setStatus w).k2 = s.k2 := rfl
@[simp] theorem State.setStatus_k3 (s : State) (w : Word) : (s.setStatus w).k3 = s.k3 := rfl
@[simp] theorem State.setStatus_seed (s : State) (w : Word) : (s.setStatus w).seed = s.seed := rfl
@[simp] theorem State.setStatus_prngs (s : State) (w : Word) : (s.setStatus w).prngs = s.prngs := rfl
@[simp] theorem State.setStatus_mem (s : State) (w : Word) : (s.setStatus w).mem = s.mem := rfl
@[simp] theorem State.setStatus_params (s : State) (w : Word) : (s.setStatus w).params = s.params := rfl
@[simp] theorem State.setStatus_prngRest (s : State) (w : Word) : (s.setStatus w).prngRest = s.prngRest := rfl
@[simp] theorem State.setStatus_draws (s : State) (w : Word) : (s.setStatus w).draws = s.draws := rfl
@[simp] theorem State.setStatus_events (s : State) (w : Word) : (s.setStatus w).events = s.events := rfl
@[simp] theorem State.setStatus_rdata (s : State) (w : Word) : (s.setStatus w).rdata = s.rdata := rfl

/-! ## State.setOutlen -/

@[simp] theorem State.setOutlen_cmd (s : State) (n : Nat) : (s.setOutlen n).cmd = s.cmd := rfl
@[simp] theorem State.setOutlen_status (s : State) (n : Nat) : (s.setOutlen n).status = s.status := rfl
@[simp] theorem State.setOutlen_ctrl (s : State) (n : Nat) : (s.setOutlen n).ctrl = s.ctrl := rfl
@[simp] theorem State.setOutlen_bsize (s : State) (n : Nat) : (s.setOutlen n).bsize = s.bsize := rfl
@[simp] theorem State.setOutlen_src (s : State) (n : Nat) : (s.setOutlen n).src = s.src := rfl
@[simp] theorem State.setOutlen_dst (s : State) (n : Nat) : (s.setOutlen n).dst = s.dst := rfl
@[simp] theorem State.setOutlen_len (s : State) (n : Nat) : (s.setOutlen n).len = s.len := rfl
@[simp] theorem State.setOutlen_ivaddr (s : State) (n : Nat) : (s.setOutlen n).ivaddr = s.ivaddr := rfl
@[simp] theorem State.setOutlen_ivlen (s : State) (n : Nat) : (s.setOutlen n).ivlen = s.ivlen := rfl
@[simp] theorem State.setOutlen_padv (s : State) (n : Nat) : (s.setOutlen n).padv = s.padv := rfl
@[simp] theorem State.setOutlen_mult (s : State) (n : Nat) : (s.setOutlen n).mult = s.mult := rfl
@[simp] theorem State.setOutlen_outlen (s : State) (n : Nat) : (s.setOutlen n).outlen = BitVec.ofNat 32 n := rfl
@[simp] theorem State.setOutlen_nblk (s : State) (n : Nat) : (s.setOutlen n).nblk = s.nblk := rfl
@[simp] theorem State.setOutlen_opa (s : State) (n : Nat) : (s.setOutlen n).opa = s.opa := rfl
@[simp] theorem State.setOutlen_opb (s : State) (n : Nat) : (s.setOutlen n).opb = s.opb := rfl
@[simp] theorem State.setOutlen_res (s : State) (n : Nat) : (s.setOutlen n).res = s.res := rfl
@[simp] theorem State.setOutlen_v0 (s : State) (n : Nat) : (s.setOutlen n).v0 = s.v0 := rfl
@[simp] theorem State.setOutlen_v1 (s : State) (n : Nat) : (s.setOutlen n).v1 = s.v1 := rfl
@[simp] theorem State.setOutlen_k0 (s : State) (n : Nat) : (s.setOutlen n).k0 = s.k0 := rfl
@[simp] theorem State.setOutlen_k1 (s : State) (n : Nat) : (s.setOutlen n).k1 = s.k1 := rfl
@[simp] theorem State.setOutlen_k2 (s : State) (n : Nat) : (s.setOutlen n).k2 = s.k2 := rfl
@[simp] theorem State.setOutlen_k3 (s : State) (n : Nat) : (s.setOutlen n).k3 = s.k3 := rfl
@[simp] theorem State.setOutlen_seed (s : State) (n : Nat) : (s.setOutlen n).seed = s.seed := rfl
@[simp] theorem State.setOutlen_prngs (s : State) (n : Nat) : (s.setOutlen n).prngs = s.prngs := rfl
@[simp] theorem State.setOutlen_mem (s : State) (n : Nat) : (s.setOutlen n).mem = s.mem := rfl
@[simp] theorem State.setOutlen_params (s : State) (n : Nat) : (s.setOutlen n).params = s.params := rfl
@[simp] theorem State.setOutlen_prngRest (s : State) (n : Nat) : (s.setOutlen n).prngRest = s.prngRest := rfl
@[simp] theorem State.setOutlen_draws (s : State) (n : Nat) : (s.setOutlen n).draws = s.draws := rfl
@[simp] theorem State.setOutlen_events (s : State) (n : Nat) : (s.setOutlen n).events = s.events := rfl
@[simp] theorem State.setOutlen_rdata (s : State) (n : Nat) : (s.setOutlen n).rdata = s.rdata := rfl

/-! ## State.setNblk -/

@[simp] theorem State.setNblk_cmd (s : State) (n : Nat) : (s.setNblk n).cmd = s.cmd := rfl
@[simp] theorem State.setNblk_status (s : State) (n : Nat) : (s.setNblk n).status = s.status := rfl
@[simp] theorem State.setNblk_ctrl (s : State) (n : Nat) : (s.setNblk n).ctrl = s.ctrl := rfl
@[simp] theorem State.setNblk_bsize (s : State) (n : Nat) : (s.setNblk n).bsize = s.bsize := rfl
@[simp] theorem State.setNblk_src (s : State) (n : Nat) : (s.setNblk n).src = s.src := rfl
@[simp] theorem State.setNblk_dst (s : State) (n : Nat) : (s.setNblk n).dst = s.dst := rfl
@[simp] theorem State.setNblk_len (s : State) (n : Nat) : (s.setNblk n).len = s.len := rfl
@[simp] theorem State.setNblk_ivaddr (s : State) (n : Nat) : (s.setNblk n).ivaddr = s.ivaddr := rfl
@[simp] theorem State.setNblk_ivlen (s : State) (n : Nat) : (s.setNblk n).ivlen = s.ivlen := rfl
@[simp] theorem State.setNblk_padv (s : State) (n : Nat) : (s.setNblk n).padv = s.padv := rfl
@[simp] theorem State.setNblk_mult (s : State) (n : Nat) : (s.setNblk n).mult = s.mult := rfl
@[simp] theorem State.setNblk_outlen (s : State) (n : Nat) : (s.setNblk n).outlen = s.outlen := rfl
@[simp] theorem State.setNblk_nblk (s : State) (n : Nat) : (s.setNblk n).nblk = BitVec.ofNat 32 n := rfl
@[simp] theorem State.setNblk_opa (s : State) (n : Nat) : (s.setNblk n).opa = s.opa := rfl
@[simp] theorem State.setNblk_opb (s : State) (n : Nat) : (s.setNblk n).opb = s.opb := rfl
@[simp] theorem State.setNblk_res (s : State) (n : Nat) : (s.setNblk n).res = s.res := rfl
@[simp] theorem State.setNblk_v0 (s : State) (n : Nat) : (s.setNblk n).v0 = s.v0 := rfl
@[simp] theorem State.setNblk_v1 (s : State) (n : Nat) : (s.setNblk n).v1 = s.v1 := rfl
@[simp] theorem State.setNblk_k0 (s : State) (n : Nat) : (s.setNblk n).k0 = s.k0 := rfl
@[simp] theorem State.setNblk_k1 (s : State) (n : Nat) : (s.setNblk n).k1 = s.k1 := rfl
@[simp] theorem State.setNblk_k2 (s : State) (n : Nat) : (s.setNblk n).k2 = s.k2 := rfl
@[simp] theorem State.setNblk_k3 (s : State) (n : Nat) : (s.setNblk n).k3 = s.k3 := rfl
@[simp] theorem State.setNblk_seed (s : State) (n : Nat) : (s.setNblk n).seed = s.seed := rfl
@[simp] theorem State.setNblk_prngs (s : State) (n : Nat) : (s.setNblk n).prngs = s.prngs := rfl
@[simp] theorem State.setNblk_mem (s : State) (n : Nat) : (s.setNblk n).mem = s.mem := rfl
@[simp] theorem State.setNblk_params (s : State) (n : Nat) : (s.setNblk n).params = s.params := rfl
@[simp] theorem State.setNblk_prngRest (s : State) (n : Nat) : (s.setNblk n).prngRest = s.prngRest := rfl
@[simp] theorem State.setNblk_draws (s : State) (n : Nat) : (s.setNblk n).draws = s.draws := rfl
@[simp] theorem State.setNblk_events (s : State) (n : Nat) : (s.setNblk n).events = s.events := rfl
@[simp] theorem State.setNblk_rdata (s : State) (n : Nat) : (s.setNblk n).rdata = s.rdata := rfl

/-! ## State.setRes -/

@[simp] theorem State.setRes_cmd (s : State) (w : Word) : (s.setRes w).cmd = s.cmd := rfl
@[simp] theorem State.setRes_status (s : State) (w : Word) : (s.setRes w).status = s.status := rfl
@[simp] theorem State.setRes_ctrl (s : State) (w : Word) : (s.setRes w).ctrl = s.ctrl := rfl
@[simp] theorem State.setRes_bsize (s : State) (w : Word) : (s.setRes w).bsize = s.bsize := rfl
@[simp] theorem State.setRes_src (s : State) (w : Word) : (s.setRes w).src = s.src := rfl
@[simp] theorem State.setRes_dst (s : State) (w : Word) : (s.setRes w).dst = s.dst := rfl
@[simp] theorem State.setRes_len (s : State) (w : Word) : (s.setRes w).len = s.len := rfl
@[simp] theorem State.setRes_ivaddr (s : State) (w : Word) : (s.setRes w).ivaddr = s.ivaddr := rfl
@[simp] theorem State.setRes_ivlen (s : State) (w : Word) : (s.setRes w).ivlen = s.ivlen := rfl
@[simp] theorem State.setRes_padv (s : State) (w : Word) : (s.setRes w).padv = s.padv := rfl
@[simp] theorem State.setRes_mult (s : State) (w : Word) : (s.setRes w).mult = s.mult := rfl
@[simp] theorem State.setRes_outlen (s : State) (w : Word) : (s.setRes w).outlen = s.outlen := rfl
@[simp] theorem State.setRes_nblk (s : State) (w : Word) : (s.setRes w).nblk = s.nblk := rfl
@[simp] theorem State.setRes_opa (s : State) (w : Word) : (s.setRes w).opa = s.opa := rfl
@[simp] theorem State.setRes_opb (s : State) (w : Word) : (s.setRes w).opb = s.opb := rfl
@[simp] theorem State.setRes_res (s : State) (w : Word) : (s.setRes w).res = w := rfl
@[simp] theorem State.setRes_v0 (s : State) (w : Word) : (s.setRes w).v0 = s.v0 := rfl
@[simp] theorem State.setRes_v1 (s : State) (w : Word) : (s.setRes w).v1 = s.v1 := rfl
@[simp] theorem State.setRes_k0 (s : State) (w : Word) : (s.setRes w).k0 = s.k0 := rfl
@[simp] theorem State.setRes_k1 (s : State) (w : Word) : (s.setRes w).k1 = s.k1 := rfl
@[simp] theorem State.setRes_k2 (s : State) (w : Word) : (s.setRes w).k2 = s.k2 := rfl
@[simp] theorem State.setRes_k3 (s : State) (w : Word) : (s.setRes w).k3 = s.k3 := rfl
@[simp] theorem State.setRes_seed (s : State) (w : Word) : (s.setRes w).seed = s.seed := rfl
@[simp] theorem State.setRes_prngs (s : State) (w : Word) : (s.setRes w).prngs = s.prngs := rfl
@[simp] theorem State.setRes_mem (s : State) (w : Word) : (s.setRes w).mem = s.mem := rfl
@[simp] theorem State.setRes_params (s : State) (w : Word) : (s.setRes w).params = s.params := rfl
@[simp] theorem State.setRes_prngRest (s : State) (w : Word) : (s.setRes w).prngRest = s.prngRest := rfl
@[simp] theorem State.setRes_draws (s : State) (w : Word) : (s.setRes w).draws = s.draws := rfl
@[simp] theorem State.setRes_events (s : State) (w : Word) : (s.setRes w).events = s.events := rfl
@[simp] theorem State.setRes_rdata (s : State) (w : Word) : (s.setRes w).rdata = s.rdata := rfl

/-! ## State.setBlock -/

@[simp] theorem State.setBlock_cmd (s : State) (a b : Word) : (s.setBlock a b).cmd = s.cmd := rfl
@[simp] theorem State.setBlock_status (s : State) (a b : Word) : (s.setBlock a b).status = s.status := rfl
@[simp] theorem State.setBlock_ctrl (s : State) (a b : Word) : (s.setBlock a b).ctrl = s.ctrl := rfl
@[simp] theorem State.setBlock_bsize (s : State) (a b : Word) : (s.setBlock a b).bsize = s.bsize := rfl
@[simp] theorem State.setBlock_src (s : State) (a b : Word) : (s.setBlock a b).src = s.src := rfl
@[simp] theorem State.setBlock_dst (s : State) (a b : Word) : (s.setBlock a b).dst = s.dst := rfl
@[simp] theorem State.setBlock_len (s : State) (a b : Word) : (s.setBlock a b).len = s.len := rfl
@[simp] theorem State.setBlock_ivaddr (s : State) (a b : Word) : (s.setBlock a b).ivaddr = s.ivaddr := rfl
@[simp] theorem State.setBlock_ivlen (s : State) (a b : Word) : (s.setBlock a b).ivlen = s.ivlen := rfl
@[simp] theorem State.setBlock_padv (s : State) (a b : Word) : (s.setBlock a b).padv = s.padv := rfl
@[simp] theorem State.setBlock_mult (s : State) (a b : Word) : (s.setBlock a b).mult = s.mult := rfl
@[simp] theorem State.setBlock_outlen (s : State) (a b : Word) : (s.setBlock a b).outlen = s.outlen := rfl
@[simp] theorem State.setBlock_nblk (s : State) (a b : Word) : (s.setBlock a b).nblk = s.nblk := rfl
@[simp] theorem State.setBlock_opa (s : State) (a b : Word) : (s.setBlock a b).opa = s.opa := rfl
@[simp] theorem State.setBlock_opb (s : State) (a b : Word) : (s.setBlock a b).opb = s.opb := rfl
@[simp] theorem State.setBlock_res (s : State) (a b : Word) : (s.setBlock a b).res = s.res := rfl
@[simp] theorem State.setBlock_v0 (s : State) (a b : Word) : (s.setBlock a b).v0 = a := rfl
@[simp] theorem State.setBlock_v1 (s : State) (a b : Word) : (s.setBlock a b).v1 = b := rfl
@[simp] theorem State.setBlock_k0 (s : State) (a b : Word) : (s.setBlock a b).k0 = s.k0 := rfl
@[simp] theorem State.setBlock_k1 (s : State) (a b : Word) : (s.setBlock a b).k1 = s.k1 := rfl
@[simp] theorem State.setBlock_k2 (s : State) (a b : Word) : (s.setBlock a b).k2 = s.k2 := rfl
@[simp] theorem State.setBlock_k3 (s : State) (a b : Word) : (s.setBlock a b).k3 = s.k3 := rfl
@[simp] theorem State.setBlock_seed (s : State) (a b : Word) : (s.setBlock a b).seed = s.seed := rfl
@[simp] theorem State.setBlock_prngs (s : State) (a b : Word) : (s.setBlock a b).prngs = s.prngs := rfl
@[simp] theorem State.setBlock_mem (s : State) (a b : Word) : (s.setBlock a b).mem = s.mem := rfl
@[simp] theorem State.setBlock_params (s : State) (a b : Word) : (s.setBlock a b).params = s.params := rfl
@[simp] theorem State.setBlock_prngRest (s : State) (a b : Word) : (s.setBlock a b).prngRest = s.prngRest := rfl
@[simp] theorem State.setBlock_draws (s : State) (a b : Word) : (s.setBlock a b).draws = s.draws := rfl
@[simp] theorem State.setBlock_events (s : State) (a b : Word) : (s.setBlock a b).events = s.events := rfl
@[simp] theorem State.setBlock_rdata (s : State) (a b : Word) : (s.setBlock a b).rdata = s.rdata := rfl

/-! ## State.setPrng -/

@[simp] theorem State.setPrng_cmd (s : State) (g : PrngState) : (s.setPrng g).cmd = s.cmd := rfl
@[simp] theorem State.setPrng_status (s : State) (g : PrngState) : (s.setPrng g).status = s.status := rfl
@[simp] theorem State.setPrng_ctrl (s : State) (g : PrngState) : (s.setPrng g).ctrl = s.ctrl := rfl
@[simp] theorem State.setPrng_bsize (s : State) (g : PrngState) : (s.setPrng g).bsize = s.bsize := rfl
@[simp] theorem State.setPrng_src (s : State) (g : PrngState) : (s.setPrng g).src = s.src := rfl
@[simp] theorem State.setPrng_dst (s : State) (g : PrngState) : (s.setPrng g).dst = s.dst := rfl
@[simp] theorem State.setPrng_len (s : State) (g : PrngState) : (s.setPrng g).len = s.len := rfl
@[simp] theorem State.setPrng_ivaddr (s : State) (g : PrngState) : (s.setPrng g).ivaddr = s.ivaddr := rfl
@[simp] theorem State.setPrng_ivlen (s : State) (g : PrngState) : (s.setPrng g).ivlen = s.ivlen := rfl
@[simp] theorem State.setPrng_padv (s : State) (g : PrngState) : (s.setPrng g).padv = s.padv := rfl
@[simp] theorem State.setPrng_mult (s : State) (g : PrngState) : (s.setPrng g).mult = s.mult := rfl
@[simp] theorem State.setPrng_outlen (s : State) (g : PrngState) : (s.setPrng g).outlen = s.outlen := rfl
@[simp] theorem State.setPrng_nblk (s : State) (g : PrngState) : (s.setPrng g).nblk = s.nblk := rfl
@[simp] theorem State.setPrng_opa (s : State) (g : PrngState) : (s.setPrng g).opa = s.opa := rfl
@[simp] theorem State.setPrng_opb (s : State) (g : PrngState) : (s.setPrng g).opb = s.opb := rfl
@[simp] theorem State.setPrng_res (s : State) (g : PrngState) : (s.setPrng g).res = s.res := rfl
@[simp] theorem State.setPrng_v0 (s : State) (g : PrngState) : (s.setPrng g).v0 = s.v0 := rfl
@[simp] theorem State.setPrng_v1 (s : State) (g : PrngState) : (s.setPrng g).v1 = s.v1 := rfl
@[simp] theorem State.setPrng_k0 (s : State) (g : PrngState) : (s.setPrng g).k0 = s.k0 := rfl
@[simp] theorem State.setPrng_k1 (s : State) (g : PrngState) : (s.setPrng g).k1 = s.k1 := rfl
@[simp] theorem State.setPrng_k2 (s : State) (g : PrngState) : (s.setPrng g).k2 = s.k2 := rfl
@[simp] theorem State.setPrng_k3 (s : State) (g : PrngState) : (s.setPrng g).k3 = s.k3 := rfl
@[simp] theorem State.setPrng_seed (s : State) (g : PrngState) : (s.setPrng g).seed = s.seed := rfl
@[simp] theorem State.setPrng_prngs (s : State) (g : PrngState) : (s.setPrng g).prngs = g.view := rfl
@[simp] theorem State.setPrng_mem (s : State) (g : PrngState) : (s.setPrng g).mem = s.mem := rfl
@[simp] theorem State.setPrng_params (s : State) (g : PrngState) : (s.setPrng g).params = s.params := rfl
@[simp] theorem State.setPrng_prngRest (s : State) (g : PrngState) : (s.setPrng g).prngRest = g.rest := rfl
@[simp] theorem State.setPrng_draws (s : State) (g : PrngState) : (s.setPrng g).draws = s.draws := rfl
@[simp] theorem State.setPrng_events (s : State) (g : PrngState) : (s.setPrng g).events = s.events := rfl
@[simp] theorem State.setPrng_rdata (s : State) (g : PrngState) : (s.setPrng g).rdata = s.rdata := rfl

/-! ## State.setMem -/

@[simp] theorem State.setMem_cmd (s : State) (m : Memory) : (s.setMem m).cmd = s.cmd := rfl
@[simp] theorem State.setMem_status (s : State) (m : Memory) : (s.setMem m).status = s.status := rfl
@[simp] theorem State.setMem_ctrl (s : State) (m : Memory) : (s.setMem m).ctrl = s.ctrl := rfl
@[simp] theorem State.setMem_bsize (s : State) (m : Memory) : (s.setMem m).bsize = s.bsize := rfl
@[simp] theorem State.setMem_src (s : State) (m : Memory) : (s.setMem m).src = s.src := rfl
@[simp] theorem State.setMem_dst (s : State) (m : Memory) : (s.setMem m).dst = s.dst := rfl
@[simp] theorem State.setMem_len (s : State) (m : Memory) : (s.setMem m).len = s.len := rfl
@[simp] theorem State.setMem_ivaddr (s : State) (m : Memory) : (s.setMem m).ivaddr = s.ivaddr := rfl
@[simp] theorem State.setMem_ivlen (s : State) (m : Memory) : (s.setMem m).ivlen = s.ivlen := rfl
@[simp] theorem State.setMem_padv (s : State) (m : Memory) : (s.setMem m).padv = s.padv := rfl
@[simp] theorem State.setMem_mult (s : State) (m : Memory) : (s.setMem m).mult = s.mult := rfl
@[simp] theorem State.setMem_outlen (s : State) (m : Memory) : (s.setMem m).outlen = s.outlen := rfl
@[simp] theorem State.setMem_nblk (s : State) (m : Memory) : (s.setMem m).nblk = s.nblk := rfl
@[simp] theorem State.setMem_opa (s : State) (m : Memory) : (s.setMem m).opa = s.opa := rfl
@[simp] theorem State.setMem_opb (s : State) (m : Memory) : (s.setMem m).opb = s.opb := rfl
@[simp] theorem State.setMem_res (s : State) (m : Memory) : (s.setMem m).res = s.res := rfl
@[simp] theorem State.setMem_v0 (s : State) (m : Memory) : (s.setMem m).v0 = s.v0 := rfl
@[simp] theorem State.setMem_v1 (s : State) (m : Memory) : (s.setMem m).v1 = s.v1 := rfl
@[simp] theorem State.setMem_k0 (s : State) (m : Memory) : (s.setMem m).k0 = s.k0 := rfl
@[simp] theorem State.setMem_k1 (s : State) (m : Memory) : (s.setMem m).k1 = s.k1 := rfl
@[simp] theorem State.setMem_k2 (s : State) (m : Memory) : (s.setMem m).k2 = s.k2 := rfl
@[simp] theorem State.setMem_k3 (s : State) (m : Memory) : (s.setMem m).k3 = s.k3 := rfl
@[simp] theorem State.setMem_seed (s : State) (m : Memory) : (s.setMem m).seed = s.seed := rfl
@[simp] theorem State.setMem_prngs (s : State) (m : Memory) : (s.setMem m).prngs = s.prngs := rfl
@[simp] theorem State.setMem_mem (s : State) (m : Memory) : (s.setMem m).mem = m := rfl
@[simp] theorem State.setMem_params (s : State) (m : Memory) : (s.setMem m).params = s.params := rfl
@[simp] theorem State.setMem_prngRest (s : State) (m : Memory) : (s.setMem m).prngRest = s.prngRest := rfl
@[simp] theorem State.setMem_draws (s : State) (m : Memory) : (s.setMem m).draws = s.draws := rfl
@[simp] theorem State.setMem_events (s : State) (m : Memory) : (s.setMem m).events = s.events := rfl
@[simp] theorem State.setMem_rdata (s : State) (m : Memory) : (s.setMem m).rdata = s.rdata := rfl

/-! ## State.setDraws -/

@[simp] theorem State.setDraws_cmd (s : State) (n : Nat) : (s.setDraws n).cmd = s.cmd := rfl
@[simp] theorem State.setDraws_status (s : State) (n : Nat) : (s.setDraws n).status = s.status := rfl
@[simp] theorem State.setDraws_ctrl (s : State) (n : Nat) : (s.setDraws n).ctrl = s.ctrl := rfl
@[simp] theorem State.setDraws_bsize (s : State) (n : Nat) : (s.setDraws n).bsize = s.bsize := rfl
@[simp] theorem State.setDraws_src (s : State) (n : Nat) : (s.setDraws n).src = s.src := rfl
@[simp] theorem State.setDraws_dst (s : State) (n : Nat) : (s.setDraws n).dst = s.dst := rfl
@[simp] theorem State.setDraws_len (s : State) (n : Nat) : (s.setDraws n).len = s.len := rfl
@[simp] theorem State.setDraws_ivaddr (s : State) (n : Nat) : (s.setDraws n).ivaddr = s.ivaddr := rfl
@[simp] theorem State.setDraws_ivlen (s : State) (n : Nat) : (s.setDraws n).ivlen = s.ivlen := rfl
@[simp] theorem State.setDraws_padv (s : State) (n : Nat) : (s.setDraws n).padv = s.padv := rfl
@[simp] theorem State.setDraws_mult (s : State) (n : Nat) : (s.setDraws n).mult = s.mult := rfl
@[simp] theorem State.setDraws_outlen (s : State) (n : Nat) : (s.setDraws n).outlen = s.outlen := rfl
@[simp] theorem State.setDraws_nblk (s : State) (n : Nat) : (s.setDraws n).nblk = s.nblk := rfl
@[simp] theorem State.setDraws_opa (s : State) (n : Nat) : (s.setDraws n).opa = s.opa := rfl
@[simp] theorem State.setDraws_opb (s : State) (n : Nat) : (s.setDraws n).opb = s.opb := rfl
@[simp] theorem State.setDraws_res (s : State) (n : Nat) : (s.setDraws n).res = s.res := rfl
@[simp] theorem State.setDraws_v0 (s : State) (n : Nat) : (s.setDraws n).v0 = s.v0 := rfl
@[simp] theorem State.setDraws_v1 (s : State) (n : Nat) : (s.setDraws n).v1 = s.v1 := rfl
@[simp] theorem State.setDraws_k0 (s : State) (n : Nat) : (s.setDraws n).k0 = s.k0 := rfl
@[simp] theorem State.setDraws_k1 (s : State) (n : Nat) : (s.setDraws n).k1 = s.k1 := rfl
@[simp] theorem State.setDraws_k2 (s : State) (n : Nat) : (s.setDraws n).k2 = s.k2 := rfl
@[simp] theorem State.setDraws_k3 (s : State) (n : Nat) : (s.setDraws n).k3 = s.k3 := rfl
@[simp] theorem State.setDraws_seed (s : State) (n : Nat) : (s.setDraws n).seed = s.seed := rfl
@[simp] theorem State.setDraws_prngs (s : State) (n : Nat) : (s.setDraws n).prngs = s.prngs := rfl
@[simp] theorem State.setDraws_mem (s : State) (n : Nat) : (s.setDraws n).mem = s.mem := rfl
@[simp] theorem State.setDraws_params (s : State) (n : Nat) : (s.setDraws n).params = s.params := rfl
@[simp] theorem State.setDraws_prngRest (s : State) (n : Nat) : (s.setDraws n).prngRest = s.prngRest := rfl
@[simp] theorem State.setDraws_draws (s : State) (n : Nat) : (s.setDraws n).draws = n := rfl
@[simp] theorem State.setDraws_events (s : State) (n : Nat) : (s.setDraws n).events = s.events := rfl
@[simp] theorem State.setDraws_rdata (s : State) (n : Nat) : (s.setDraws n).rdata = s.rdata := rfl

/-! ## State.setEvents -/

@[simp] theorem State.setEvents_cmd (s : State) (es : List BusEvent) : (s.setEvents es).cmd = s.cmd := rfl
@[simp] theorem State.setEvents_status (s : State) (es : List BusEvent) : (s.setEvents es).status = s.status := rfl
@[simp] theorem State.setEvents_ctrl (s : State) (es : List BusEvent) : (s.setEvents es).ctrl = s.ctrl := rfl
@[simp] theorem State.setEvents_bsize (s : State) (es : List BusEvent) : (s.setEvents es).bsize = s.bsize := rfl
@[simp] theorem State.setEvents_src (s : State) (es : List BusEvent) : (s.setEvents es).src = s.src := rfl
@[simp] theorem State.setEvents_dst (s : State) (es : List BusEvent) : (s.setEvents es).dst = s.dst := rfl
@[simp] theorem State.setEvents_len (s : State) (es : List BusEvent) : (s.setEvents es).len = s.len := rfl
@[simp] theorem State.setEvents_ivaddr (s : State) (es : List BusEvent) : (s.setEvents es).ivaddr = s.ivaddr := rfl
@[simp] theorem State.setEvents_ivlen (s : State) (es : List BusEvent) : (s.setEvents es).ivlen = s.ivlen := rfl
@[simp] theorem State.setEvents_padv (s : State) (es : List BusEvent) : (s.setEvents es).padv = s.padv := rfl
@[simp] theorem State.setEvents_mult (s : State) (es : List BusEvent) : (s.setEvents es).mult = s.mult := rfl
@[simp] theorem State.setEvents_outlen (s : State) (es : List BusEvent) : (s.setEvents es).outlen = s.outlen := rfl
@[simp] theorem State.setEvents_nblk (s : State) (es : List BusEvent) : (s.setEvents es).nblk = s.nblk := rfl
@[simp] theorem State.setEvents_opa (s : State) (es : List BusEvent) : (s.setEvents es).opa = s.opa := rfl
@[simp] theorem State.setEvents_opb (s : State) (es : List BusEvent) : (s.setEvents es).opb = s.opb := rfl
@[simp] theorem State.setEvents_res (s : State) (es : List BusEvent) : (s.setEvents es).res = s.res := rfl
@[simp] theorem State.setEvents_v0 (s : State) (es : List BusEvent) : (s.setEvents es).v0 = s.v0 := rfl
@[simp] theorem State.setEvents_v1 (s : State) (es : List BusEvent) : (s.setEvents es).v1 = s.v1 := rfl
@[simp] theorem State.setEvents_k0 (s : State) (es : List BusEvent) : (s.setEvents es).k0 = s.k0 := rfl
@[simp] theorem State.setEvents_k1 (s : State) (es : List BusEvent) : (s.setEvents es).k1 = s.k1 := rfl
@[simp] theorem State.setEvents_k2 (s : State) (es : List BusEvent) : (s.setEvents es).k2 = s.k2 := rfl
@[simp] theorem State.setEvents_k3 (s : State) (es : List BusEvent) : (s.setEvents es).k3 = s.k3 := rfl
@[simp] theorem State.setEvents_seed (s : State) (es : List BusEvent) : (s.setEvents es).seed = s.seed := rfl
@[simp] theorem State.setEvents_prngs (s : State) (es : List BusEvent) : (s.setEvents es).prngs = s.prngs := rfl
@[simp] theorem State.setEvents_mem (s : State) (es : List BusEvent) : (s.setEvents es).mem = s.mem := rfl
@[simp] theorem State.setEvents_params (s : State) (es : List BusEvent) : (s.setEvents es).params = s.params := rfl
@[simp] theorem State.setEvents_prngRest (s : State) (es : List BusEvent) : (s.setEvents es).prngRest = s.prngRest := rfl
@[simp] theorem State.setEvents_draws (s : State) (es : List BusEvent) : (s.setEvents es).draws = s.draws := rfl
@[simp] theorem State.setEvents_events (s : State) (es : List BusEvent) : (s.setEvents es).events = es := rfl
@[simp] theorem State.setEvents_rdata (s : State) (es : List BusEvent) : (s.setEvents es).rdata = s.rdata := rfl

/-! ## State.setRdata -/

@[simp] theorem State.setRdata_cmd (s : State) (w : Word) : (s.setRdata w).cmd = s.cmd := rfl
@[simp] theorem State.setRdata_status (s : State) (w : Word) : (s.setRdata w).status = s.status := rfl
@[simp] theorem State.setRdata_ctrl (s : State) (w : Word) : (s.setRdata w).ctrl = s.ctrl := rfl
@[simp] theorem State.setRdata_bsize (s : State) (w : Word) : (s.setRdata w).bsize = s.bsize := rfl
@[simp] theorem State.setRdata_src (s : State) (w : Word) : (s.setRdata w).src = s.src := rfl
@[simp] theorem State.setRdata_dst (s : State) (w : Word) : (s.setRdata w).dst = s.dst := rfl
@[simp] theorem State.setRdata_len (s : State) (w : Word) : (s.setRdata w).len = s.len := rfl
@[simp] theorem State.setRdata_ivaddr (s : State) (w : Word) : (s.setRdata w).ivaddr = s.ivaddr := rfl
@[simp] theorem State.setRdata_ivlen (s : State) (w : Word) : (s.setRdata w).ivlen = s.ivlen := rfl
@[simp] theorem State.setRdata_padv (s : State) (w : Word) : (s.setRdata w).padv = s.padv := rfl
@[simp] theorem State.setRdata_mult (s : State) (w : Word) : (s.setRdata w).mult = s.mult := rfl
@[simp] theorem State.setRdata_outlen (s : State) (w : Word) : (s.setRdata w).outlen = s.outlen := rfl
@[simp] theorem State.setRdata_nblk (s : State) (w : Word) : (s.setRdata w).nblk = s.nblk := rfl
@[simp] theorem State.setRdata_opa (s : State) (w : Word) : (s.setRdata w).opa = s.opa := rfl
@[simp] theorem State.setRdata_opb (s : State) (w : Word) : (s.setRdata w).opb = s.opb := rfl
@[simp] theorem State.setRdata_res (s : State) (w : Word) : (s.setRdata w).res = s.res := rfl
@[simp] theorem State.setRdata_v0 (s : State) (w : Word) : (s.setRdata w).v0 = s.v0 := rfl
@[simp] theorem State.setRdata_v1 (s : State) (w : Word) : (s.setRdata w).v1 = s.v1 := rfl
@[simp] theorem State.setRdata_k0 (s : State) (w : Word) : (s.setRdata w).k0 = s.k0 := rfl
@[simp] theorem State.setRdata_k1 (s : State) (w : Word) : (s.setRdata w).k1 = s.k1 := rfl
@[simp] theorem State.setRdata_k2 (s : State) (w : Word) : (s.setRdata w).k2 = s.k2 := rfl
@[simp] theorem State.setRdata_k3 (s : State) (w : Word) : (s.setRdata w).k3 = s.k3 := rfl
@[simp] theorem State.setRdata_seed (s : State) (w : Word) : (s.setRdata w).seed = s.seed := rfl
@[simp] theorem State.setRdata_prngs (s : State) (w : Word) : (s.setRdata w).prngs = s.prngs := rfl
@[simp] theorem State.setRdata_mem (s : State) (w : Word) : (s.setRdata w).mem = s.mem := rfl
@[simp] theorem State.setRdata_params (s : State) (w : Word) : (s.setRdata w).params = s.params := rfl
@[simp] theorem State.setRdata_prngRest (s : State) (w : Word) : (s.setRdata w).prngRest = s.prngRest := rfl
@[simp] theorem State.setRdata_draws (s : State) (w : Word) : (s.setRdata w).draws = s.draws := rfl
@[simp] theorem State.setRdata_events (s : State) (w : Word) : (s.setRdata w).events = s.events := rfl
@[simp] theorem State.setRdata_rdata (s : State) (w : Word) : (s.setRdata w).rdata = w := rfl

/-! ## complete -/

@[simp] theorem complete_cmd (code : Nat) (s : State) : (complete code s).cmd = s.cmd := rfl
@[simp] theorem complete_status (code : Nat) (s : State) : (complete code s).status = completedStatus s.status code := rfl
@[simp] theorem complete_ctrl (code : Nat) (s : State) : (complete code s).ctrl = s.ctrl := rfl
@[simp] theorem complete_bsize (code : Nat) (s : State) : (complete code s).bsize = s.bsize := rfl
@[simp] theorem complete_src (code : Nat) (s : State) : (complete code s).src = s.src := rfl
@[simp] theorem complete_dst (code : Nat) (s : State) : (complete code s).dst = s.dst := rfl
@[simp] theorem complete_len (code : Nat) (s : State) : (complete code s).len = s.len := rfl
@[simp] theorem complete_ivaddr (code : Nat) (s : State) : (complete code s).ivaddr = s.ivaddr := rfl
@[simp] theorem complete_ivlen (code : Nat) (s : State) : (complete code s).ivlen = s.ivlen := rfl
@[simp] theorem complete_padv (code : Nat) (s : State) : (complete code s).padv = s.padv := rfl
@[simp] theorem complete_mult (code : Nat) (s : State) : (complete code s).mult = s.mult := rfl
@[simp] theorem complete_outlen (code : Nat) (s : State) : (complete code s).outlen = s.outlen := rfl
@[simp] theorem complete_nblk (code : Nat) (s : State) : (complete code s).nblk = s.nblk := rfl
@[simp] theorem complete_opa (code : Nat) (s : State) : (complete code s).opa = s.opa := rfl
@[simp] theorem complete_opb (code : Nat) (s : State) : (complete code s).opb = s.opb := rfl
@[simp] theorem complete_res (code : Nat) (s : State) : (complete code s).res = s.res := rfl
@[simp] theorem complete_v0 (code : Nat) (s : State) : (complete code s).v0 = s.v0 := rfl
@[simp] theorem complete_v1 (code : Nat) (s : State) : (complete code s).v1 = s.v1 := rfl
@[simp] theorem complete_k0 (code : Nat) (s : State) : (complete code s).k0 = s.k0 := rfl
@[simp] theorem complete_k1 (code : Nat) (s : State) : (complete code s).k1 = s.k1 := rfl
@[simp] theorem complete_k2 (code : Nat) (s : State) : (complete code s).k2 = s.k2 := rfl
@[simp] theorem complete_k3 (code : Nat) (s : State) : (complete code s).k3 = s.k3 := rfl
@[simp] theorem complete_seed (code : Nat) (s : State) : (complete code s).seed = s.seed := rfl
@[simp] theorem complete_prngs (code : Nat) (s : State) : (complete code s).prngs = s.prngs := rfl
@[simp] theorem complete_mem (code : Nat) (s : State) : (complete code s).mem = s.mem := rfl
@[simp] theorem complete_params (code : Nat) (s : State) : (complete code s).params = s.params := rfl
@[simp] theorem complete_prngRest (code : Nat) (s : State) : (complete code s).prngRest = s.prngRest := rfl
@[simp] theorem complete_draws (code : Nat) (s : State) : (complete code s).draws = s.draws := rfl
@[simp] theorem complete_events (code : Nat) (s : State) : (complete code s).events = s.events := rfl
@[simp] theorem complete_rdata (code : Nat) (s : State) : (complete code s).rdata = s.rdata := rfl

/-! ## acceptCommand -/

@[simp] theorem acceptCommand_cmd (w : Word) (s : State) : (acceptCommand w s).cmd = w := rfl
@[simp] theorem acceptCommand_status (w : Word) (s : State) : (acceptCommand w s).status = acceptedStatus := rfl
@[simp] theorem acceptCommand_ctrl (w : Word) (s : State) : (acceptCommand w s).ctrl = s.ctrl := rfl
@[simp] theorem acceptCommand_bsize (w : Word) (s : State) : (acceptCommand w s).bsize = s.bsize := rfl
@[simp] theorem acceptCommand_src (w : Word) (s : State) : (acceptCommand w s).src = s.src := rfl
@[simp] theorem acceptCommand_dst (w : Word) (s : State) : (acceptCommand w s).dst = s.dst := rfl
@[simp] theorem acceptCommand_len (w : Word) (s : State) : (acceptCommand w s).len = s.len := rfl
@[simp] theorem acceptCommand_ivaddr (w : Word) (s : State) : (acceptCommand w s).ivaddr = s.ivaddr := rfl
@[simp] theorem acceptCommand_ivlen (w : Word) (s : State) : (acceptCommand w s).ivlen = s.ivlen := rfl
@[simp] theorem acceptCommand_padv (w : Word) (s : State) : (acceptCommand w s).padv = s.padv := rfl
@[simp] theorem acceptCommand_mult (w : Word) (s : State) : (acceptCommand w s).mult = s.mult := rfl
@[simp] theorem acceptCommand_outlen (w : Word) (s : State) : (acceptCommand w s).outlen = s.outlen := rfl
@[simp] theorem acceptCommand_nblk (w : Word) (s : State) : (acceptCommand w s).nblk = s.nblk := rfl
@[simp] theorem acceptCommand_opa (w : Word) (s : State) : (acceptCommand w s).opa = s.opa := rfl
@[simp] theorem acceptCommand_opb (w : Word) (s : State) : (acceptCommand w s).opb = s.opb := rfl
@[simp] theorem acceptCommand_res (w : Word) (s : State) : (acceptCommand w s).res = s.res := rfl
@[simp] theorem acceptCommand_v0 (w : Word) (s : State) : (acceptCommand w s).v0 = s.v0 := rfl
@[simp] theorem acceptCommand_v1 (w : Word) (s : State) : (acceptCommand w s).v1 = s.v1 := rfl
@[simp] theorem acceptCommand_k0 (w : Word) (s : State) : (acceptCommand w s).k0 = s.k0 := rfl
@[simp] theorem acceptCommand_k1 (w : Word) (s : State) : (acceptCommand w s).k1 = s.k1 := rfl
@[simp] theorem acceptCommand_k2 (w : Word) (s : State) : (acceptCommand w s).k2 = s.k2 := rfl
@[simp] theorem acceptCommand_k3 (w : Word) (s : State) : (acceptCommand w s).k3 = s.k3 := rfl
@[simp] theorem acceptCommand_seed (w : Word) (s : State) : (acceptCommand w s).seed = s.seed := rfl
@[simp] theorem acceptCommand_prngs (w : Word) (s : State) : (acceptCommand w s).prngs = s.prngs := rfl
@[simp] theorem acceptCommand_mem (w : Word) (s : State) : (acceptCommand w s).mem = s.mem := rfl
@[simp] theorem acceptCommand_params (w : Word) (s : State) : (acceptCommand w s).params = s.params := rfl
@[simp] theorem acceptCommand_prngRest (w : Word) (s : State) : (acceptCommand w s).prngRest = s.prngRest := rfl
@[simp] theorem acceptCommand_draws (w : Word) (s : State) : (acceptCommand w s).draws = s.draws := rfl
@[simp] theorem acceptCommand_events (w : Word) (s : State) : (acceptCommand w s).events = s.events := rfl
@[simp] theorem acceptCommand_rdata (w : Word) (s : State) : (acceptCommand w s).rdata = s.rdata := rfl

/-- Two states that agree on every field are equal. -/
theorem State.ext_fields {s t : State}
    (h_cmd : s.cmd = t.cmd) (h_status : s.status = t.status) (h_ctrl : s.ctrl = t.ctrl) (h_bsize : s.bsize = t.bsize)
    (h_src : s.src = t.src) (h_dst : s.dst = t.dst) (h_len : s.len = t.len) (h_ivaddr : s.ivaddr = t.ivaddr)
    (h_ivlen : s.ivlen = t.ivlen) (h_padv : s.padv = t.padv) (h_mult : s.mult = t.mult) (h_outlen : s.outlen = t.outlen)
    (h_nblk : s.nblk = t.nblk) (h_opa : s.opa = t.opa) (h_opb : s.opb = t.opb) (h_res : s.res = t.res)
    (h_v0 : s.v0 = t.v0) (h_v1 : s.v1 = t.v1) (h_k0 : s.k0 = t.k0) (h_k1 : s.k1 = t.k1)
    (h_k2 : s.k2 = t.k2) (h_k3 : s.k3 = t.k3) (h_seed : s.seed = t.seed) (h_prngs : s.prngs = t.prngs)
    (h_mem : s.mem = t.mem) (h_params : s.params = t.params) (h_prngRest : s.prngRest = t.prngRest) (h_draws : s.draws = t.draws)
    (h_events : s.events = t.events) (h_rdata : s.rdata = t.rdata)
    : s = t := by
  cases s; cases t; simp_all

end Sys2Proof.Machine
end

