-- ==== Sys2Proof/Laws/Ops.lean ====
section
/-! SUPPORT. One lemma per shared operation that says once everything it can do: loops, buffer reads and writes,
completion, the region check and the effective block size. -/
namespace Sys2Proof.Machine

/-! ## Loops -/

@[simp] theorem forRange_zero {σ : Type} (body : Nat → σ → σ) (s : σ) : forRange 0 body s = s := rfl

theorem forRange_succ {σ : Type} (n : Nat) (body : Nat → σ → σ) (s : σ) :
    forRange (n + 1) body s = body n (forRange n body s) := rfl

/-- A property of the loop variable and the state that holds at the start and that every iteration keeps holds at the
end. -/
theorem forRange_induct {σ : Type} {n : Nat} {body : Nat → σ → σ} {s : σ} (P : Nat → σ → Prop) (h0 : P 0 s)
    (hs : ∀ i t, i < n → P i t → P (i + 1) (body i t)) : P n (forRange n body s) := by
  induction n with
  | zero => exact h0
  | succ n ih =>
    rw [forRange_succ]
    exact hs n _ (Nat.lt_succ_self n) (ih fun i t hi => hs i t (Nat.lt_succ_of_lt hi))

/-- Running n + k iterations is running n and then k more. -/
theorem forRange_add {σ : Type} (n k : Nat) (body : Nat → σ → σ) (s : σ) :
    forRange (n + k) body s = forRange k (fun i => body (n + i)) (forRange n body s) := by
  induction k with
  | zero => rfl
  | succ k ih => rw [← Nat.add_assoc, forRange_succ, forRange_succ, ih]

/-- Two loops whose bodies agree on the iterations that run agree. -/
theorem forRange_congr {σ : Type} {n : Nat} {f g : Nat → σ → σ} (s : σ) (h : ∀ i < n, ∀ t, f i t = g i t) :
    forRange n f s = forRange n g s := by
  induction n with
  | zero => rfl
  | succ n ih =>
    rw [forRange_succ, forRange_succ, ih fun i hi => h i (Nat.lt_succ_of_lt hi), h n (Nat.lt_succ_self n)]

/-! ## What an operation on the buffer memory can do -/

/-- `t` is `s` after reads (which may draw unspecified values) and writes of buffer words at addresses in R: nothing else
differs, every byte outside R's words reads as before, and the memory keeps its form. -/
structure Touches (R : Nat → Prop) (s t : State) : Prop where
  frame : t = { s with mem := t.mem, draws := t.draws }
  byte : ∀ k, (∀ a, R a → k < bufferOffset a ∨ bufferOffset a + 4 ≤ k) → t.mem.readByte k = s.mem.readByte k
  wf : s.mem.wf → t.mem.wf
  whole : s.mem.whole → t.mem.whole
  within : ∀ n, (∀ a, R a → a < n) → s.mem.within n → t.mem.within n

theorem Touches.refl (R : Nat → Prop) (s : State) : Touches R s s :=
  ⟨rfl, fun _ _ => rfl, id, id, fun _ _ h => h⟩

theorem Touches.trans {R : Nat → Prop} {s t u : State} (h1 : Touches R s t) (h2 : Touches R t u) : Touches R s u where
  frame := by rw [h2.frame, h1.frame]
  byte k hk := (h2.byte k hk).trans (h1.byte k hk)
  wf h := h2.wf (h1.wf h)
  whole h := h2.whole (h1.whole h)
  within n hn h := h2.within n hn (h1.within n hn h)

theorem Touches.mono {R R' : Nat → Prop} {s t : State} (h : Touches R s t) (hR : ∀ a, R a → R' a) :
    Touches R' s t where
  frame := h.frame
  byte k hk := h.byte k fun a ha => hk a (hR a ha)
  wf := h.wf
  whole := h.whole
  within n hn := h.within n fun a ha => hn a (hR a ha)

/-- A word outside the touched addresses reads as before. -/
theorem Touches.word {R : Nat → Prop} {s t : State} (h : Touches R s t) {a : Nat} (ha : ¬ R a) :
    t.mem.readWord a = s.mem.readWord a := by
  apply Memory.readWord_congr
  intro k hk hk'
  apply h.byte
  intro b hb
  have : a ≠ b := fun e => ha (e ▸ hb)
  unfold bufferOffset at *; omega

theorem Touches.params_eq {R : Nat → Prop} {s t : State} (h : Touches R s t) : t.params = s.params := by rw [h.frame]
theorem Touches.ctrl_eq {R : Nat → Prop} {s t : State} (h : Touches R s t) : t.ctrl = s.ctrl := by rw [h.frame]
theorem Touches.status_eq {R : Nat → Prop} {s t : State} (h : Touches R s t) : t.status = s.status := by rw [h.frame]

/-- A loop whose every iteration touches only R touches only R. -/
theorem Touches.forRange {R : Nat → Prop} {n : Nat} {body : Nat → State → State} {s : State}
    (h : ∀ i t, i < n → Touches R t (body i t)) : Touches R s (Machine.forRange n body s) :=
  forRange_induct (P := fun _ t => Touches R s t) (Touches.refl R s) fun i t hi ht => ht.trans (h i t hi)

/-! ## Reading buffer words -/

theorem memRead_of_some {s : State} {a : Nat} {w : Word} (h : s.mem.readWord a = some w) : memRead a s = (w, s) := by
  simp [memRead, h]

theorem memRead_of_none {s : State} {a : Nat} (h : s.mem.readWord a = none) :
    memRead a s = (Config.freeWord s.draws, s.setDraws (s.draws + 1)) := by
  simp [memRead, h, drawWord]

@[simp] theorem memRead_mem (a : Nat) (s : State) : (memRead a s).2.mem = s.mem := by
  unfold memRead; split <;> rfl

theorem memRead_touches (R : Nat → Prop) (a : Nat) (s : State) : Touches R s (memRead a s).2 := by
  unfold memRead
  split
  · exact Touches.refl R s
  · exact ⟨rfl, fun _ _ => rfl, id, id, fun _ _ h => h⟩

@[simp] theorem memReadSeq_mem (n a : Nat) (s : State) : (memReadSeq a n s).2.mem = s.mem := by
  induction n generalizing a s with
  | zero => rfl
  | succ n ih => simp [memReadSeq, ih]

@[simp] theorem memReadSeq_length (n a : Nat) (s : State) : (memReadSeq a n s).1.length = n := by
  induction n generalizing a s with
  | zero => rfl
  | succ n ih => simp [memReadSeq, ih]

theorem memReadSeq_touches (R : Nat → Prop) (n a : Nat) (s : State) : Touches R s (memReadSeq a n s).2 := by
  induction n generalizing a s with
  | zero => exact Touches.refl R s
  | succ n ih => exact (memRead_touches R a s).trans (ih _ _)

/-- MemRead(a, n) returns the words that are there. -/
theorem memReadSeq_getElem? {n a j : Nat} {s : State} {w : Word} (hj : j < n)
    (h : s.mem.readWord (a + j) = some w) : (memReadSeq a n s).1[j]? = some w := by
  induction n generalizing a j s with
  | zero => omega
  | succ n ih =>
    cases j with
    | zero =>
      have h0 : s.mem.readWord a = some w := h
      simp [memReadSeq, memRead_of_some h0]
    | succ j =>
      have h' : (memRead a s).2.mem.readWord (a + 1 + j) = some w := by
        rw [memRead_mem]; rw [show a + 1 + j = a + (j + 1) by omega]; exact h
      simpa [memReadSeq] using ih (by omega) h'

/-! ## Writing buffer words -/

theorem memWrite_readWord (a b : Nat) (w : Word) (s : State) :
    (memWrite a w s).mem.readWord b = if b = a then some w else s.mem.readWord b := by
  simp [memWrite, Memory.readWord_writeWord]

theorem memWrite_touches {R : Nat → Prop} {a : Nat} (ha : R a) (w : Word) (s : State) :
    Touches R s (memWrite a w s) where
  frame := rfl
  byte _ hk := Memory.readByte_writeWord_outside _ _ (hk a ha)
  wf := Memory.writeWord_wf _ _
  whole := Memory.writeWord_whole _ _
  within _ hn h := Memory.writeWord_within _ (hn a ha) h

theorem memWriteSeq_touches {R : Nat → Prop} (ws : List Word) (a : Nat) (s : State)
    (h : ∀ b, a ≤ b → b < a + ws.length → R b) : Touches R s (memWriteSeq a ws s) := by
  induction ws generalizing a s with
  | nil => exact Touches.refl R s
  | cons w ws ih =>
    simp only [List.length_cons] at h
    exact (memWrite_touches (h a (Nat.le_refl a) (by omega)) w s).trans
      (ih (a + 1) _ fun b hb hb' => h b (by omega) (by omega))

/-- MemWrite(a, n, s) writes its words in place and no others. -/
theorem memWriteSeq_readWord (ws : List Word) (a b : Nat) (s : State) :
    (memWriteSeq a ws s).mem.readWord b =
      if a ≤ b ∧ b < a + ws.length then ws[b - a]? else s.mem.readWord b := by
  induction ws generalizing a s with
  | nil => rw [if_neg (by simp)]; rfl
  | cons w ws ih =>
    simp only [memWriteSeq, ih, List.length_cons, memWrite_readWord]
    by_cases h1 : a + 1 ≤ b ∧ b < a + 1 + ws.length
    · rw [if_pos h1, if_pos (by omega)]
      obtain ⟨d, rfl⟩ : ∃ d, b = a + 1 + d := ⟨b - (a + 1), by omega⟩
      rw [show a + 1 + d - a = d + 1 by omega, show a + 1 + d - (a + 1) = d by omega]
      rfl
    · rw [if_neg h1]
      by_cases h2 : b = a
      · subst h2; rw [if_pos rfl, if_pos (by omega)]; simp
      · rw [if_neg h2, if_neg (by omega)]

/-! ## Completion -/

/-- A command always answers a next state: the error's STATUS update, or the effect and then STATUS. -/
theorem runCommand_cases {α : Type} (check : State → Except CmdError α) (effect : α → State → State) (s : State) :
    (∃ e, check s = .error e ∧ runCommand check effect s = .next (raiseError e s)) ∨
    (∃ a, check s = .ok a ∧ runCommand check effect s = .next (complete 0 (effect a s))) := by
  unfold runCommand
  split
  · exact .inl ⟨_, ‹_›, rfl⟩
  · exact .inr ⟨_, ‹_›, rfl⟩

theorem runCommand_of_error {α : Type} {check : State → Except CmdError α} {effect : α → State → State} {s : State}
    {e : CmdError} (h : check s = .error e) : runCommand check effect s = .next (complete e.code s) := by
  simp [runCommand, h, raiseError]

theorem runCommand_of_ok {α : Type} {check : State → Except CmdError α} {effect : α → State → State} {s : State}
    {a : α} (h : check s = .ok a) : runCommand check effect s = .next (complete 0 (effect a s)) := by
  simp [runCommand, h]

theorem CmdError.code_ne_zero (e : CmdError) : e.code ≠ 0 := by cases e <;> decide

theorem CmdError.code_le_four (e : CmdError) : e.code ≤ 4 := by cases e <;> decide

/-! ## STATUS words -/

theorem statusWord_fields (b d e o : Bool) {c : Nat} (hc : c < 16) :
    statusBusy (statusWord b d e o c) = b ∧ statusDone (statusWord b d e o c) = d ∧
      statusErr (statusWord b d e o c) = e ∧ statusOvr (statusWord b d e o c) = o ∧
      statusErrCode (statusWord b d e o c) = c ∧ statusShown (statusWord b d e o c) = statusWord b d e o c := by
  revert b d e o c
  decide

/-! ## The region check -/

theorem inRange_iff (s : State) (base n : Nat) : inRange s base n = true ↔ n = 0 ∨ base + n ≤ s.params.memWords := by
  simp [inRange]

/-- Every address of a region in range lies in the buffer memory. -/
theorem inRange_lt {s : State} {base n j : Nat} (h : inRange s base n = true) (hj : j < n) :
    base + j < s.params.memWords := by
  rw [inRange_iff] at h; omega

/-! ## The padded length and the effective block size -/

theorem roundup_zero_left {m : Nat} (hm : 0 < m) : roundup 0 m = 0 := by
  unfold roundup
  rw [show 0 + m - 1 = m - 1 by omega, Nat.div_eq_of_lt (by omega), Nat.zero_mul]

theorem le_roundup (n : Nat) {m : Nat} (hm : 0 < m) : n ≤ roundup n m := by
  unfold roundup
  have h := Nat.div_add_mod (n + m - 1) m
  have h' := Nat.mod_lt (n + m - 1) hm
  rw [Nat.mul_comm]; omega

theorem roundup_lt (n : Nat) {m : Nat} (hm : 0 < m) : roundup n m < n + m := by
  unfold roundup
  have h := Nat.div_mul_le_self (n + m - 1) m
  omega

theorem roundup_mod (n m : Nat) : roundup n m % m = 0 := Nat.mul_mod_left _ _

theorem roundup_div_mul (n : Nat) {m : Nat} (hm : 0 < m) : roundup n m / m * m = roundup n m := by
  unfold roundup; rw [Nat.mul_div_cancel _ hm]

theorem roundup_of_mod {n m : Nat} (hm : 0 < m) (h : n % m = 0) : roundup n m = n := by
  obtain ⟨k, rfl⟩ := Nat.dvd_of_mod_eq_zero h
  have h1 := le_roundup (m * k) hm
  have h2 := roundup_lt (m * k) hm
  have h3 := roundup_div_mul (m * k) hm
  have : roundup (m * k) m / m = k := by
    apply Nat.le_antisymm
    · apply Nat.le_of_lt_succ
      rw [Nat.div_lt_iff_lt_mul hm]
      rw [Nat.succ_mul, Nat.mul_comm k m]; exact h2
    · rw [Nat.le_div_iff_mul_le hm, Nat.mul_comm]; exact h1
  rw [← h3, this, Nat.mul_comm]

/-- What EffBS returns: an even size from 2 to P_BS_MAX, which is BSIZE or, under ODDBS_COMPAT, an odd BSIZE plus 1. -/
theorem effBS_ok {s : State} {bs : Nat} (h : effBS s = .ok bs) :
    bs % 2 = 0 ∧ 2 ≤ bs ∧ bs ≤ s.params.bsMax ∧ s.bsize.toNat ≤ bs ∧ bs ≤ s.bsize.toNat + 1 := by
  simp only [effBS] at h
  split at h
  · cases h
  · split at h
    · split at h
      · split at h
        · cases h
        · cases h; omega
      · cases h
    · split at h
      · cases h
      · cases h; omega

theorem effBS_error {s : State} {e : CmdError} (h : effBS s = .error e) : e = .invalidBlockSize := by
  simp only [effBS] at h
  split at h
  · cases h; rfl
  · split at h
    · split at h
      · split at h
        · cases h; rfl
        · cases h
      · cases h; rfl
    · split at h
      · cases h; rfl
      · cases h

end Sys2Proof.Machine
end

