-- ==== Sys2Proof/Laws/Commands.lean ====
section
/-! SUPPORT. One lemma per command part: when a check part passes and with which operands, what an effect part can do, and
from these the one lemma that says everything exec can do. -/
namespace Sys2Proof.Machine

/-! ## Check parts -/

theorem padCheck_ok {s : State} {f : FramePlan × Word} (h : padCheck s = .ok f) :
    s.mult.toNat ≠ 0 ∧ inRange s s.src.toNat (roundup s.len.toNat s.mult.toNat) = true ∧
      f = ({ base := s.src.toNat, n := s.len.toNat, p := roundup s.len.toNat s.mult.toNat }, s.padv) := by
  simp only [padCheck] at h
  split at h
  · cases h
  · split at h
    · cases h; exact ⟨‹_›, ‹_›, rfl⟩
    · cases h

theorem splitCheck_ok {s : State} {f : FramePlan × Nat} (h : splitCheck s = .ok f) :
    ∃ bs, effBS s = .ok bs ∧ inRange s s.src.toNat (roundup s.len.toNat bs) = true ∧
      f = ({ base := s.src.toNat, n := s.len.toNat, p := roundup s.len.toNat bs }, bs) := by
  simp only [splitCheck] at h
  split at h
  · cases h
  · split at h
    · cases h; exact ⟨_, ‹_›, ‹_›, rfl⟩
    · cases h

theorem xorvCheck_ok {s : State} {p : XorPlan} (h : xorvCheck s = .ok p) :
    s.len.toNat = s.ivlen.toNat ∧ inRange s s.src.toNat s.len.toNat = true ∧
      inRange s s.ivaddr.toNat s.len.toNat = true ∧ inRange s s.dst.toNat s.len.toNat = true ∧
      p = { src := s.src.toNat, iva := s.ivaddr.toNat, dst := s.dst.toNat, n := s.len.toNat } := by
  simp only [xorvCheck] at h
  split at h
  · cases h
  · rename_i hn
    split at h
    · rename_i hr
      simp only [Bool.and_eq_true] at hr
      cases h
      exact ⟨not_not.1 hn, hr.1.1, hr.1.2, hr.2, rfl⟩
    · cases h

theorem cbceCheck_ok {s : State} {p : CbcPlan} (h : cbceCheck s = .ok p) :
    ∃ bs, effBS s = .ok bs ∧ s.ivlen.toNat = bs ∧ inRange s s.src.toNat s.len.toNat = true ∧
      inRange s s.dst.toNat (roundup s.len.toNat bs) = true ∧ inRange s s.ivaddr.toNat bs = true ∧
      p = { bs := bs, n := s.len.toNat, p := roundup s.len.toNat bs, src := s.src.toNat, dst := s.dst.toNat,
            iva := s.ivaddr.toNat, key := keyOperand s } := by
  simp only [cbceCheck] at h
  split at h
  · cases h
  · split at h
    · cases h
    · rename_i hn
      split at h
      · rename_i hr
        simp only [Bool.and_eq_true] at hr
        cases h
        exact ⟨_, ‹_›, not_not.1 hn, hr.1.1, hr.1.2, hr.2, rfl⟩
      · cases h

theorem cbcdCheck_ok {s : State} {p : CbcPlan} (h : cbcdCheck s = .ok p) :
    ∃ bs, effBS s = .ok bs ∧ s.ivlen.toNat = bs ∧ s.len.toNat % bs = 0 ∧
      inRange s s.src.toNat s.len.toNat = true ∧
      inRange s s.dst.toNat s.len.toNat = true ∧ inRange s s.ivaddr.toNat bs = true ∧
      p = { bs := bs, n := s.len.toNat, p := s.len.toNat, src := s.src.toNat, dst := s.dst.toNat,
            iva := s.ivaddr.toNat, key := keyOperand s } := by
  simp only [cbcdCheck] at h
  split at h
  · cases h
  · split at h
    · cases h
    · rename_i hn
      split at h
      · cases h
      · rename_i hm
        split at h
        · rename_i hr
          simp only [Bool.and_eq_true] at hr
          cases h
          exact ⟨_, ‹_›, not_not.1 hn, not_not.1 hm, hr.1.1, hr.1.2, hr.2, rfl⟩
        · cases h

theorem genivCheck_ok {s : State} {d : Nat × Nat} (h : genivCheck s = .ok d) :
    inRange s s.dst.toNat s.len.toNat = true ∧ d = (s.dst.toNat, s.len.toNat) := by
  simp only [genivCheck] at h
  split at h
  · cases h; exact ⟨‹_›, rfl⟩
  · cases h

/-! ## Effect parts -/

theorem appendPad_touches (f : FramePlan) (pv : Word) (s : State) :
    Touches (fun a => f.base + f.n ≤ a ∧ a < f.base + f.n + (f.p - f.n)) s (appendPad f pv s) :=
  Touches.forRange fun i t hi => memWrite_touches ⟨by omega, by omega⟩ _ _

/-- Appending only writes: it draws no unspecified value. -/
@[simp] theorem appendPad_draws (f : FramePlan) (pv : Word) (s : State) : (appendPad f pv s).draws = s.draws :=
  forRange_induct (P := fun _ (t : State) => t.draws = s.draws) rfl fun _ _ _ h => h

/-- The appended words hold the pad value. -/
theorem appendPad_readWord (f : FramePlan) (pv : Word) (s : State) {a : Nat} (h1 : f.base + f.n ≤ a)
    (h2 : a < f.base + f.n + (f.p - f.n)) : (appendPad f pv s).mem.readWord a = some pv := by
  have H : ∀ k, (forRange k (fun k t => memWrite (f.base + f.n + k) pv t) s).mem.readWord a =
      if a < f.base + f.n + k then some pv else s.mem.readWord a := by
    intro k
    induction k with
    | zero => rw [if_neg (by omega)]; rfl
    | succ k ih =>
      rw [forRange_succ, memWrite_readWord, ih]
      by_cases e : a = f.base + f.n + k
      · rw [if_pos e, if_pos (by omega)]
      · rw [if_neg e]
        by_cases e' : a < f.base + f.n + k
        · rw [if_pos e', if_pos (by omega)]
        · rw [if_neg e', if_neg (by omega)]
  unfold appendPad
  rw [H, if_pos h2]

theorem xorvElement_touches {R : Nat → Prop} (p : XorPlan) (i : Nat) (s : State) (h : R (p.dst + i)) :
    Touches R s (xorvElement p i s) :=
  ((memRead_touches R _ _).trans (memRead_touches R _ _)).trans (memWrite_touches h _ _)

theorem xorvLoop_touches (p : XorPlan) (s : State) :
    Touches (fun a => p.dst ≤ a ∧ a < p.dst + p.n) s (forRange p.n (xorvElement p) s) :=
  Touches.forRange fun i t hi => xorvElement_touches p i t ⟨by omega, by omega⟩

@[simp] theorem readPadded_mem (src n off count : Nat) (s : State) :
    (readPadded src n off count s).2.mem = s.mem := by
  induction count generalizing off s with
  | zero => rfl
  | succ c ih => simp only [readPadded, ih]; split <;> simp

@[simp] theorem readPadded_length (src n off count : Nat) (s : State) :
    (readPadded src n off count s).1.length = count := by
  induction count generalizing off s with
  | zero => rfl
  | succ c ih => simp [readPadded, ih]

theorem readPadded_touches (R : Nat → Prop) (src n off count : Nat) (s : State) :
    Touches R s (readPadded src n off count s).2 := by
  induction count generalizing off s with
  | zero => exact Touches.refl R s
  | succ c ih =>
    simp only [readPadded]
    split
    · exact (memRead_touches R _ _).trans (ih _ _)
    · exact ih _ _

/-- Beyond the message the words are zero. -/
theorem readPadded_pad {src n off count j : Nat} {s : State} (hj : j < count) (h : n ≤ off + j) :
    (readPadded src n off count s).1[j]? = some 0#32 := by
  induction count generalizing off j s with
  | zero => omega
  | succ c ih =>
    cases j with
    | zero => simp [readPadded, show ¬ off < n by omega]
    | succ j => simpa [readPadded] using ih (off := off + 1) (by omega) (by omega)

/-- Within the message the words are those that are there. -/
theorem readPadded_written {src n off count j : Nat} {s : State} {w : Word} (hj : j < count)
    (h : off + j < n) (hw : s.mem.readWord (src + (off + j)) = some w) :
    (readPadded src n off count s).1[j]? = some w := by
  induction count generalizing off j s with
  | zero => omega
  | succ c ih =>
    cases j with
    | zero =>
      have hw' : s.mem.readWord (src + off) = some w := hw
      simp [readPadded, show off < n by omega, memRead_of_some hw']
    | succ j =>
      have hw' : (if off < n then memRead (src + off) s else (0#32, s)).2.mem.readWord (src + (off + 1 + j)) =
          some w := by
        rw [show off + 1 + j = off + (j + 1) by omega]
        split <;> simpa using hw
      simpa [readPadded] using ih (off := off + 1) (by omega) (by omega) hw'

@[simp] theorem xorWords_length (xs ys : List Word) : (xorWords xs ys).length = min xs.length ys.length := by
  simp [xorWords]

theorem xorWords_getElem? {xs ys : List Word} {j : Nat} {a b : Word} (h1 : xs[j]? = some a) (h2 : ys[j]? = some b) :
    (xorWords xs ys)[j]? = some (xor32 a b) := by
  simp [xorWords, List.getElem?_zipWith, h1, h2]

@[simp] theorem cipherWords_length (cipher : Block → Key → Block) (k : Key) :
    ∀ xs : List Word, (cipherWords cipher k xs).length = xs.length
  | [] => rfl
  | [_] => rfl
  | _ :: _ :: xs => by simp [cipherWords, cipherWords_length cipher k xs]

/-- Words 2m and 2m+1 of the result are the cipher of words 2m and 2m+1. -/
theorem cipherWords_getElem? {cipher : Block → Key → Block} {k : Key} {a b : Word} :
    ∀ {xs : List Word} {m : Nat}, xs[2 * m]? = some a → xs[2 * m + 1]? = some b →
      (cipherWords cipher k xs)[2 * m]? = some (cipher ⟨a, b⟩ k).v0 ∧
        (cipherWords cipher k xs)[2 * m + 1]? = some (cipher ⟨a, b⟩ k).v1
  | [], _, h0, _ => by simp at h0
  | [_], _, _, h1 => by simp at h1
  | _ :: _ :: _, 0, h0, h1 => by simp_all [cipherWords]
  | _ :: _ :: xs, m + 1, h0, h1 => by
    have e0 : xs[2 * m]? = some a := by simpa [Nat.mul_add] using h0
    have e1 : xs[2 * m + 1]? = some b := by simpa [Nat.mul_add] using h1
    simpa [cipherWords, Nat.mul_add] using cipherWords_getElem? (cipher := cipher) (k := k) e0 e1

theorem cbceBlock_touches {R : Nat → Prop} (p : CbcPlan) (i : Nat) (cs : List Word × State)
    (h : ∀ a, p.dst + i * p.bs ≤ a → a < p.dst + i * p.bs + p.bs → R a) :
    Touches R cs.2 (cbceBlock p i cs).2 := by
  refine (readPadded_touches R _ _ _ _ _).trans (memWriteSeq_touches _ _ _ fun b hb hb' => h b hb ?_)
  simp only [cipherWords_length, xorWords_length, readPadded_length] at hb'
  omega

theorem cbcdBlock_touches {R : Nat → Prop} (p : CbcPlan) (i : Nat) (cs : List Word × State)
    (h : ∀ a, p.dst + i * p.bs ≤ a → a < p.dst + i * p.bs + p.bs → R a) :
    Touches R cs.2 (cbcdBlock p i cs).2 := by
  refine (memReadSeq_touches R _ _ _).trans (memWriteSeq_touches _ _ _ fun b hb hb' => h b hb ?_)
  simp only [cipherWords_length, xorWords_length, memReadSeq_length] at hb'
  omega

/-- Block i of c blocks ends within them. -/
theorem block_end {i c bs : Nat} (h : i < c) : i * bs + bs ≤ c * bs := by
  rw [← Nat.succ_mul]; exact Nat.mul_le_mul_right bs h

theorem cbceLoop_touches (p : CbcPlan) (s : State) :
    Touches (fun a => p.dst ≤ a ∧ a < p.dst + p.p / p.bs * p.bs) s
      (forRange (p.p / p.bs) (cbceBlock p) (memReadSeq p.iva p.bs s)).2 := by
  refine forRange_induct (P := fun _ cs => Touches _ s cs.2) (memReadSeq_touches _ _ _ _) fun i cs hi h =>
    h.trans (cbceBlock_touches p i cs fun a h1 h2 => ?_)
  have := block_end (bs := p.bs) hi
  omega

theorem cbcdLoop_touches (p : CbcPlan) (s : State) :
    Touches (fun a => p.dst ≤ a ∧ a < p.dst + p.n / p.bs * p.bs) s
      (forRange (p.n / p.bs) (cbcdBlock p) (memReadSeq p.iva p.bs s)).2 := by
  refine forRange_induct (P := fun _ cs => Touches _ s cs.2) (memReadSeq_touches _ _ _ _) fun i cs hi h =>
    h.trans (cbcdBlock_touches p i cs fun a h1 h2 => ?_)
  have := block_end (bs := p.bs) hi
  omega

theorem genivLoop_touches (dst n : Nat) (g : PrngState) (s : State) :
    Touches (fun a => dst ≤ a ∧ a < dst + n) s (forRange n (genivWord dst) (g, s)).2 :=
  forRange_induct (P := fun _ (gs : PrngState × State) => Touches _ s gs.2) (Touches.refl _ s) fun i _ hi h =>
    h.trans (memWrite_touches (a := dst + i) ⟨by omega, by omega⟩ _ _)

/-- Generating only writes: it draws no unspecified value. -/
@[simp] theorem genivLoop_draws (dst n : Nat) (g : PrngState) (s : State) :
    (forRange n (genivWord dst) (g, s)).2.draws = s.draws :=
  forRange_induct (P := fun _ (gs : PrngState × State) => gs.2.draws = s.draws) rfl fun _ _ _ h => h

/-! ## Everything exec can do -/

/-- What the effect part of any command can do to a state: it writes no other field than these, and it keeps the memory's
form and stays inside the buffer memory; OUTLEN and NBLK stay as they are or become lengths that fit the buffer. -/
structure Effect (s t : State) : Prop where
  frame : t = { s with res := t.res, v0 := t.v0, v1 := t.v1, prngs := t.prngs, prngRest := t.prngRest,
                       mem := t.mem, draws := t.draws, outlen := t.outlen, nblk := t.nblk }
  wf : s.mem.wf → t.mem.wf
  whole : s.mem.whole → t.mem.whole
  within : s.mem.within s.params.memWords → t.mem.within s.params.memWords
  outlen : t.outlen = s.outlen ∨ ∃ n, n ≤ s.params.memWords ∧ t.outlen = BitVec.ofNat 32 n
  nblk : t.nblk = s.nblk ∨ ∃ n, n ≤ s.params.memWords ∧ t.nblk = BitVec.ofNat 32 n

theorem Effect.refl (s : State) : Effect s s := ⟨rfl, id, id, id, .inl rfl, .inl rfl⟩

theorem Effect.of_touches {R : Nat → Prop} {s t : State} (h : Touches R s t)
    (hR : ∀ a, R a → a < s.params.memWords) : Effect s t where
  frame := by rw [h.frame]
  wf := h.wf
  whole := h.whole
  within := h.within _ hR
  outlen := .inl (by rw [h.frame])
  nblk := .inl (by rw [h.frame])

theorem Effect.setRes {s t : State} (h : Effect s t) (w : Word) : Effect s (t.setRes w) where
  frame := by rw [h.frame]; rfl
  wf := h.wf
  whole := h.whole
  within := h.within
  outlen := h.outlen
  nblk := h.nblk

theorem Effect.setBlock {s t : State} (h : Effect s t) (a b : Word) : Effect s (t.setBlock a b) where
  frame := by rw [h.frame]; rfl
  wf := h.wf
  whole := h.whole
  within := h.within
  outlen := h.outlen
  nblk := h.nblk

theorem Effect.setPrng {s t : State} (h : Effect s t) (g : PrngState) : Effect s (t.setPrng g) where
  frame := by rw [h.frame]; rfl
  wf := h.wf
  whole := h.whole
  within := h.within
  outlen := h.outlen
  nblk := h.nblk

theorem Effect.setOutlen {s t : State} (h : Effect s t) {n : Nat} (hn : n ≤ s.params.memWords) :
    Effect s (t.setOutlen n) where
  frame := by rw [h.frame]; rfl
  wf := h.wf
  whole := h.whole
  within := h.within
  outlen := .inr ⟨n, hn, rfl⟩
  nblk := h.nblk

theorem Effect.setNblk {s t : State} (h : Effect s t) {n : Nat} (hn : n ≤ s.params.memWords) :
    Effect s (t.setNblk n) where
  frame := by rw [h.frame]; rfl
  wf := h.wf
  whole := h.whole
  within := h.within
  outlen := h.outlen
  nblk := .inr ⟨n, hn, rfl⟩

theorem inRange_le {s : State} {base n : Nat} (h : inRange s base n = true) : n ≤ s.params.memWords := by
  rw [inRange_iff] at h; omega

/-- The errors a command can raise (R202, column "raised by"). -/
def mayRaise : Instr → List CmdError
  | .add | .sub | .mul | .shl | .shr | .xor | .encb | .decb | .seed => []
  | .pad | .split => [.invalidBlockSize, .addressRange]
  | .xorv => [.lengthMismatch, .addressRange]
  | .cbce | .cbcd => [.invalidBlockSize, .lengthMismatch, .addressRange]
  | .geniv _ => [.addressRange]

theorem padCheck_error {s : State} {e : CmdError} (h : padCheck s = .error e) : e ∈ mayRaise .pad := by
  simp only [padCheck] at h
  split at h
  · cases h; decide
  · split at h
    · cases h
    · cases h; decide

theorem splitCheck_error {s : State} {e : CmdError} (h : splitCheck s = .error e) : e ∈ mayRaise .split := by
  simp only [splitCheck] at h
  split at h
  · cases h; rename_i e' he; cases effBS_error he; decide
  · split at h
    · cases h
    · cases h; decide

theorem xorvCheck_error {s : State} {e : CmdError} (h : xorvCheck s = .error e) : e ∈ mayRaise .xorv := by
  simp only [xorvCheck] at h
  split at h
  · cases h; decide
  · split at h
    · cases h
    · cases h; decide

theorem cbceCheck_error {s : State} {e : CmdError} (h : cbceCheck s = .error e) : e ∈ mayRaise .cbce := by
  simp only [cbceCheck] at h
  split at h
  · cases h; rename_i e' he; cases effBS_error he; decide
  · split at h
    · cases h; decide
    · split at h
      · cases h
      · cases h; decide

theorem cbcdCheck_error {s : State} {e : CmdError} (h : cbcdCheck s = .error e) : e ∈ mayRaise .cbcd := by
  simp only [cbcdCheck] at h
  split at h
  · cases h; rename_i e' he; cases effBS_error he; decide
  · split at h
    · cases h; decide
    · split at h
      · cases h; decide
      · split at h
        · cases h
        · cases h; decide

theorem genivCheck_error {s : State} {e : CmdError} (h : genivCheck s = .error e) (r : Bool) :
    e ∈ mayRaise (.geniv r) := by
  simp only [genivCheck] at h
  split at h
  · cases h
  · cases h; exact List.mem_singleton.2 rfl

theorem padEffect_effect {s : State} {f : FramePlan × Word} (h : padCheck s = .ok f) : Effect s (padEffect f s) := by
  obtain ⟨-, hr, rfl⟩ := padCheck_ok h
  refine (Effect.of_touches (appendPad_touches _ _ _) fun a ha => ?_).setOutlen (inRange_le hr)
  dsimp only at ha
  obtain ⟨d, rfl⟩ : ∃ d, a = s.src.toNat + d := ⟨a - s.src.toNat, by omega⟩
  exact inRange_lt hr (by omega)

theorem splitEffect_effect {s : State} {f : FramePlan × Nat} (h : splitCheck s = .ok f) :
    Effect s (splitEffect f s) := by
  obtain ⟨bs, -, hr, rfl⟩ := splitCheck_ok h
  refine ((Effect.of_touches (appendPad_touches _ _ _) fun a ha => ?_).setOutlen (inRange_le hr)).setNblk
    (Nat.le_trans (Nat.div_le_self _ _) (inRange_le hr))
  dsimp only at ha
  obtain ⟨d, rfl⟩ : ∃ d, a = s.src.toNat + d := ⟨a - s.src.toNat, by omega⟩
  exact inRange_lt hr (by omega)

theorem xorvEffect_effect {s : State} {p : XorPlan} (h : xorvCheck s = .ok p) : Effect s (xorvEffect p s) := by
  obtain ⟨-, -, -, hr, rfl⟩ := xorvCheck_ok h
  refine (Effect.of_touches (xorvLoop_touches _ _) fun a ha => ?_).setOutlen (inRange_le hr)
  obtain ⟨d, rfl⟩ : ∃ d, a = s.dst.toNat + d := ⟨a - s.dst.toNat, by dsimp only at ha; omega⟩
  exact inRange_lt hr (by dsimp only at ha; omega)

theorem cbceEffect_effect {s : State} {p : CbcPlan} (h : cbceCheck s = .ok p) : Effect s (cbceEffect p s) := by
  obtain ⟨bs, hbs, -, -, hr, -, rfl⟩ := cbceCheck_ok h
  have hb := effBS_ok hbs
  have e := roundup_div_mul s.len.toNat (m := bs) (by omega)
  refine ((Effect.of_touches (cbceLoop_touches _ _) fun a ha => ?_).setOutlen (inRange_le hr)).setNblk
    (Nat.le_trans (Nat.div_le_self _ _) (inRange_le hr))
  dsimp only at ha
  rw [e] at ha
  obtain ⟨d, rfl⟩ : ∃ d, a = s.dst.toNat + d := ⟨a - s.dst.toNat, by omega⟩
  exact inRange_lt hr (by omega)

theorem cbcdEffect_effect {s : State} {p : CbcPlan} (h : cbcdCheck s = .ok p) : Effect s (cbcdEffect p s) := by
  obtain ⟨bs, hbs, -, -, -, hr, -, rfl⟩ := cbcdCheck_ok h
  have e : s.len.toNat / bs * bs ≤ s.len.toNat := Nat.div_mul_le_self _ _
  refine ((Effect.of_touches (cbcdLoop_touches _ _) fun a ha => ?_).setOutlen (inRange_le hr)).setNblk
    (Nat.le_trans (Nat.div_le_self _ _) (inRange_le hr))
  dsimp only at ha
  obtain ⟨d, rfl⟩ : ∃ d, a = s.dst.toNat + d := ⟨a - s.dst.toNat, by omega⟩
  exact inRange_lt hr (by omega)

theorem genivEffect_effect {s : State} {d : Nat × Nat} (r : Bool) (h : genivCheck s = .ok d) :
    Effect s (genivEffect r d s) := by
  obtain ⟨hr, rfl⟩ := genivCheck_ok h
  refine ((Effect.of_touches (genivLoop_touches _ _ _ _) fun a ha => ?_).setPrng _).setOutlen (inRange_le hr)
  dsimp only at ha
  obtain ⟨d, rfl⟩ : ∃ d, a = s.dst.toNat + d := ⟨a - s.dst.toNat, by omega⟩
  exact inRange_lt hr (by omega)

/-- Everything exec can do (R200, R201): raise an error the command may raise, which changes STATUS alone, or run its
effect part and complete with success. -/
theorem exec_cases (i : Instr) (s : State) :
    (∃ e ∈ mayRaise i, exec i s = .next (complete e.code s)) ∨
    (∃ t, exec i s = .next (complete 0 t) ∧ Effect s t) := by
  have key {α : Type} (check : State → Except CmdError α) (effect : α → State → State)
      (herr : ∀ e, check s = .error e → e ∈ mayRaise i) (hok : ∀ a, check s = .ok a → Effect s (effect a s))
      (hx : exec i s = runCommand check effect s) :
      (∃ e ∈ mayRaise i, exec i s = .next (complete e.code s)) ∨
      (∃ t, exec i s = .next (complete 0 t) ∧ Effect s t) := by
    rw [hx]
    rcases runCommand_cases check effect s with ⟨e, h, h'⟩ | ⟨a, h, h'⟩
    · exact .inl ⟨e, herr e h, h'⟩
    · exact .inr ⟨_, h', hok a h⟩
  cases i
  case pad => exact key _ _ (fun _ => padCheck_error) (fun _ => padEffect_effect) rfl
  case split => exact key _ _ (fun _ => splitCheck_error) (fun _ => splitEffect_effect) rfl
  case xorv => exact key _ _ (fun _ => xorvCheck_error) (fun _ => xorvEffect_effect) rfl
  case cbce => exact key _ _ (fun _ => cbceCheck_error) (fun _ => cbceEffect_effect) rfl
  case cbcd => exact key _ _ (fun _ => cbcdCheck_error) (fun _ => cbcdEffect_effect) rfl
  case geniv r => exact key _ _ (fun _ h => genivCheck_error h r) (fun _ => genivEffect_effect r) rfl
  case seed => exact .inr ⟨_, rfl, (Effect.refl s).setPrng _⟩
  case encb => exact .inr ⟨_, rfl, (Effect.refl s).setBlock _ _⟩
  case decb => exact .inr ⟨_, rfl, (Effect.refl s).setBlock _ _⟩
  all_goals exact .inr ⟨_, rfl, (Effect.refl s).setRes _⟩

end Sys2Proof.Machine
end

