-- ==== Sys2Proof/Laws/Step.lean ====
section
/-! SUPPORT. One lemma per event for step, and what host reads, host writes, resets and engine turns can do. -/
namespace Sys2Proof.Machine

/-! ## STATUS after completion -/

/-- The model's STATUS update of completion is R26's word. -/
theorem completedStatus_eq_statusAfter (s : State) (c : Nat) : completedStatus s.status c = statusAfter c s := by
  unfold completedStatus statusAfter statusWord statusOvr
  have e : (c != 0) = if c = 0 then false else true := by split <;> simp_all
  rw [e]
  cases s.status.getLsbD 3 <;> by_cases h : c = 0 <;> simp [h]

theorem complete_eq_statusAfter (c : Nat) (s : State) : complete c s = { s with status := statusAfter c s } := by
  rw [← completedStatus_eq_statusAfter]; rfl

/-- The fields of the STATUS word a completed command leaves. -/
theorem statusAfter_fields {c : Nat} (hc : c < 16) (s : State) :
    (statusAfter c s).getLsbD 0 = false ∧ (statusAfter c s).getLsbD 1 = true ∧
      (statusAfter c s).getLsbD 2 = (c != 0) ∧ (statusAfter c s).getLsbD 3 = s.status.getLsbD 3 ∧
      (statusAfter c s).toNat / 16 % 16 = c ∧ (statusAfter c s).toNat < 256 := by
  unfold statusAfter
  generalize s.status.getLsbD 3 = b
  revert c b
  decide

theorem regionFits_iff_inRange (s : State) (base n : Nat) : regionFits s base n ↔ inRange s base n = true := by
  rw [inRange_iff]; rfl

/-- What touches only a region leaves every byte outside it. -/
theorem Touches.sameOutside {R : Nat → Prop} {s t : State} {base n : Nat} (h : Touches R s t)
    (hR : ∀ a, R a → base ≤ a ∧ a < base + n) : sameOutside base n s t := by
  intro k hk
  refine h.byte k fun a ha => ?_
  have := hR a ha
  unfold bufferOffset; omega

/-! ## step, by the event that comes first -/

theorem step_of_nil {s : State} (h : s.events = []) : step s = engineTurn s := by unfold step; rw [h]

theorem step_of_engine {s : State} {es : List BusEvent} (h : s.events = .engine :: es) :
    step s = engineTurn (s.setEvents es) := by unfold step; rw [h]

theorem step_of_reset {s : State} {es : List BusEvent} (h : s.events = .reset :: es) :
    step s = .next (hostReset (s.setEvents es)) := by unfold step; rw [h]

theorem step_of_read {s : State} {es : List BusEvent} {addr width : Nat} (h : s.events = .read addr width :: es) :
    step s = busRead addr width (s.setEvents es) := by unfold step; rw [h]

theorem step_of_write {s : State} {es : List BusEvent} {addr width : Nat} {v : Word}
    (h : s.events = .write addr width v :: es) : step s = busWrite addr width v (s.setEvents es) := by
  unfold step; rw [h]

/-- Everything an engine turn can do (R201, R221). -/
theorem engineTurn_cases (s : State) :
    (statusBusy s.status = false ∧ engineTurn s = .next s) ∨
    (statusBusy s.status = true ∧ (∃ e, decode s.cmd = .error e) ∧ engineTurn s = .next (complete 4 s)) ∨
    (∃ i, statusBusy s.status = true ∧ decode s.cmd = .ok i ∧ engineTurn s = exec i s) := by
  cases hb : statusBusy s.status
  · exact .inl ⟨rfl, by simp [engineTurn, hb]⟩
  · cases hd : decode s.cmd with
    | error e => exact .inr (.inl ⟨rfl, ⟨e, rfl⟩, by simp [engineTurn, hb, hd, raiseError, CmdError.code]⟩)
    | ok i => exact .inr (.inr ⟨i, rfl, rfl, by simp [engineTurn, hb, hd]⟩)

/-! ## Bus accesses -/

/-- An aligned word access at an offset within the aperture reaches that offset. -/
theorem busTarget_of_offset {p : Params} {o : Nat} (h4 : o % 4 = 0) (ho : o < 0x1000 + 4 * p.memWords) :
    busTarget p (p.base + o) 4 = .ok (targetAt o) := by
  unfold busTarget apertureSize
  rw [if_neg (by omega), if_neg (by simp [h4]), Nat.add_sub_cancel_left]

theorem busTarget_of_outside {p : Params} {addr : Nat} (width : Nat)
    (h : addr < p.base ∨ p.base + 0x1000 + 4 * p.memWords ≤ addr) : busTarget p addr width = .error .outsideAperture := by
  unfold busTarget apertureSize
  rw [if_pos (by omega)]

theorem busTarget_of_not_word {p : Params} {addr width : Nat} (h1 : p.base ≤ addr)
    (h2 : addr < p.base + 0x1000 + 4 * p.memWords) (h3 : width ≠ 4 ∨ (addr - p.base) % 4 ≠ 0) :
    busTarget p addr width = .error .notAWordAccess := by
  unfold busTarget apertureSize
  rw [if_neg (by omega), if_pos h3]

/-- The buffer words an access can reach lie in the buffer memory. -/
theorem busTarget_buffer_lt {p : Params} {addr width a : Nat} (h : busTarget p addr width = .ok (.buffer a)) :
    a < p.memWords := by
  unfold busTarget at h
  split at h
  · cases h
  rename_i h1
  split at h
  · cases h
  · unfold apertureSize at h1
    simp only [Except.ok.injEq, targetAt] at h
    split at h
    · split at h <;> cases h
    · cases h; omega

theorem targetAt_buffer (a : Nat) : targetAt (0x1000 + 4 * a) = .buffer a := by
  unfold targetAt
  rw [if_neg (by omega), Nat.add_sub_cancel_left, Nat.mul_div_cancel_left _ (by omega)]

theorem regAt_eq_status {o : Nat} : regAt o = some .status ↔ o = 4 := by
  unfold regAt; split <;> simp_all

theorem regAt_of_ge {o : Nat} (h : 0x60 ≤ o) : regAt o = none := by
  unfold regAt; split <;> first | omega | rfl

theorem memRead_frame (a : Nat) (s : State) : (memRead a s).2 = { s with draws := (memRead a s).2.draws } := by
  unfold memRead; split <;> rfl

/-- A host read changes nothing but what bus_rdata shows and the count of draws. -/
theorem hostRead_frame (t : Target) (s : State) :
    hostRead t s = { s with rdata := (hostRead t s).rdata, draws := (hostRead t s).draws } := by
  unfold hostRead
  split
  · unfold readBusy; split <;> rfl
  · unfold readIdle; split
    · rfl
    · rfl
    · dsimp only; rw [memRead_frame]; rfl

theorem hostWrite_of_busy {s : State} (h : statusBusy s.status = true) (t : Target) (v : Word) :
    hostWrite t v s = s.setStatus (overrunStatus s.status) := by simp [hostWrite, h]

theorem hostWrite_of_idle {s : State} (h : statusBusy s.status = false) (t : Target) (v : Word) :
    hostWrite t v s = match t with
      | .register r => writeReg s v r
      | .unmapped => s
      | .buffer a => memWrite a v s := by cases t <;> simp [hostWrite, h]

end Sys2Proof.Machine
end

