-- ==== Sys2Proof/Laws/Chains.lean ====
section
/-! SUPPORT. One lemma per command loop (XORV, CBCE, CBCD, GENIV) that says once what the loop leaves in memory, in the
terms the statements use, and one about runs of many steps. -/
namespace Sys2Proof.Machine

/-! ## What a command reads while it writes (20_memory.md R69) -/

/-- Later writes that leave the words written so far leave what has been read. -/
theorem readsAs_of_later {s t t' : State} {dst w a : Nat} {v : Word} (h : readsAs s t dst w a v)
    (ht : ∀ b, dst ≤ b → b < dst + w → t'.mem.readWord b = t.mem.readWord b) : readsAs s t' dst w a v := by
  unfold readsAs at *
  split
  · rename_i hc; rw [if_pos hc] at h; rw [ht _ hc.1 hc.2]; exact h
  · rename_i hc; rw [if_neg hc] at h; exact h

/-- A value that is what memory has, in a state reached by writing the w words from dst, is what R69 says is read. -/
theorem readsAs_of_written {s t : State} {dst w a : Nat} {v : Word}
    (h : Touches (fun b => dst ≤ b ∧ b < dst + w) s t)
    (hs : ∀ b, dst ≤ b → b < dst + w → (t.mem.readWord b).isSome = true)
    (hv : ∀ x, t.mem.readWord a = some x → v = x) : readsAs s t dst w a v := by
  unfold readsAs
  split
  · rename_i hc
    obtain ⟨x, hx⟩ := Option.isSome_iff_exists.1 (hs a hc.1 hc.2)
    rw [hv x hx, hx]
  · rename_i hc
    intro x hx
    rw [← h.word hc] at hx
    exact hv x hx

/-- A word outside what is written so far is read as it was at the start. -/
theorem readsAs_of_outside {s t : State} {dst w a : Nat} {v x : Word} (h : readsAs s t dst w a v)
    (ha : ¬ (dst ≤ a ∧ a < dst + w)) (hx : s.mem.readWord a = some x) : v = x := by
  unfold readsAs at h
  rw [if_neg ha] at h
  exact h x hx

/-! ## XORV -/

/-- The first n elements of XORV (R160). -/
theorem xorvLoop_spec (p : XorPlan) (s : State) (n : Nat) :
    ∃ x y : Nat → Word,
      Touches (fun b => p.dst ≤ b ∧ b < p.dst + n) s (forRange n (xorvElement p) s) ∧
      ∀ i < n,
        readsAs s (forRange n (xorvElement p) s) p.dst i (p.src + i) (x i) ∧
        readsAs s (forRange n (xorvElement p) s) p.dst i (p.iva + i) (y i) ∧
        (forRange n (xorvElement p) s).mem.readWord (p.dst + i) = some (x i ^^^ y i) := by
  induction n with
  | zero => exact ⟨fun _ => 0, fun _ => 0, Touches.refl _ _, fun i hi => absurd hi (by omega)⟩
  | succ n ih =>
    obtain ⟨x, y, ht, hh⟩ := ih
    rw [forRange_succ]
    generalize forRange n (xorvElement p) s = t at *
    have hsome : ∀ b, p.dst ≤ b → b < p.dst + n → (t.mem.readWord b).isSome = true := by
      intro b h1 h2
      have := (hh (b - p.dst) (by omega)).2.2
      rw [show p.dst + (b - p.dst) = b by omega] at this
      rw [this]; rfl
    have he : ∀ b, b ≠ p.dst + n → (xorvElement p n t).mem.readWord b = t.mem.readWord b := by
      intro b hb
      simp only [xorvElement, memWrite_readWord]
      rw [if_neg hb]; simp
    refine ⟨fun i => if i = n then (memRead (p.src + n) t).1 else x i,
      fun i => if i = n then (memRead (p.iva + n) (memRead (p.src + n) t).2).1 else y i,
      (ht.mono fun a ha => ⟨ha.1, by omega⟩).trans (xorvElement_touches _ _ _ ⟨by omega, by omega⟩), ?_⟩
    intro i hi
    by_cases hin : i = n
    · subst hin
      simp only [if_true]
      refine ⟨readsAs_of_later (t := t) (readsAs_of_written ht hsome fun z hz => ?_) fun b h1 h2 => he b (by omega),
        readsAs_of_later (t := t) (readsAs_of_written ht hsome fun z hz => ?_) fun b h1 h2 => he b (by omega), ?_⟩
      · rw [memRead_of_some hz]
      · rw [memRead_of_some (by simpa using hz)]
      · simp [xorvElement, memWrite_readWord, xor32]
    · simp only [if_neg hin]
      obtain ⟨a1, a2, a3⟩ := hh i (by omega)
      refine ⟨readsAs_of_later a1 fun b h1 h2 => he b (by omega), readsAs_of_later a2 fun b h1 h2 => he b (by omega), ?_⟩
      rw [he _ (by omega)]; exact a3

/-! ## The chaining blocks -/

theorem getD_of_getElem? {xs : List Word} {j : Nat} {w : Word} (h : xs[j]? = some w) : xs.getD j 0 = w := by
  rw [List.getD_eq_getElem?_getD, h]; rfl

theorem block_div {n bs j : Nat} (hj : j < bs) : (n * bs + j) / bs = n := by
  rw [Nat.mul_comm, Nat.mul_add_div (by omega), Nat.div_eq_of_lt hj, Nat.add_zero]

theorem block_mod {n bs j : Nat} (hj : j < bs) : (n * bs + j) % bs = j := by
  rw [Nat.mul_comm, Nat.mul_add_mod, Nat.mod_eq_of_lt hj]

/-- An offset in the first n + 1 blocks is in the first n, or is word j of block n. -/
theorem block_split {n bs e : Nat} (h : e < (n + 1) * bs) : e < n * bs ∨ ∃ j < bs, e = n * bs + j := by
  rw [Nat.succ_mul] at h
  by_cases h' : e < n * bs
  · exact .inl h'
  · exact .inr ⟨e - n * bs, by omega, by omega⟩

/-- An offset in the first n blocks lies in a block before block n, and the words of the blocks before its own are among
the words of the blocks before n. -/
theorem block_lt {n bs e : Nat} (h : e < n * bs) : e / bs < n ∧ e / bs * bs ≤ n * bs := by
  have h1 : e / bs < n := (Nat.div_lt_iff_lt_mul (Nat.pos_of_ne_zero fun e => by simp [e] at h)).2 h
  exact ⟨h1, Nat.mul_le_mul_right _ (by omega)⟩

/-- Words of the first n blocks, and then those of block n. -/
def addBlock (bs n : Nat) (xs : List Word) (c : Nat → Word) (f : Nat) : Word :=
  if f / bs = n then xs.getD (f % bs) 0 else c f

theorem addBlock_old {bs n f : Nat} (xs : List Word) (c : Nat → Word) (h : f < n * bs) :
    addBlock bs n xs c f = c f := if_neg (by have := (block_lt h).1; omega)

theorem addBlock_new {bs n j : Nat} (xs : List Word) (c : Nat → Word) (h : j < bs) :
    addBlock bs n xs c (n * bs + j) = xs.getD j 0 := by
  unfold addBlock; rw [block_div h, block_mod h, if_pos rfl]

/-- A new block n leaves the chain values of the blocks up to n ... -/
theorem chainWord_addBlock {iv c : Nat → Word} {bs n i j : Nat} (xs : List Word) (hi : i ≤ n) (hj : j < bs) :
    chainWord iv (addBlock bs n xs c) bs i j = chainWord iv c bs i j := by
  unfold chainWord
  split
  · rfl
  · exact if_neg (by rw [block_div hj]; omega)

/-- ... and is the chain value of the next. -/
theorem chainWord_addBlock_next {iv c : Nat → Word} {bs n j : Nat} (xs : List Word) (hj : j < bs) :
    chainWord iv (addBlock bs n xs c) bs (n + 1) j = xs.getD j 0 := by
  unfold chainWord
  rw [if_neg (by omega), Nat.add_sub_cancel, addBlock_new _ _ hj]

theorem getElem?_eq_getD {xs : List Word} {j : Nat} (h : j < xs.length) : xs[j]? = some (xs.getD j 0) := by
  rw [List.getD_eq_getElem?_getD, List.getElem?_eq_getElem h]; rfl

/-- The first n blocks of CBCE (R161, R164). -/
theorem cbceLoop_spec (p : CbcPlan) (s : State) (heven : p.bs % 2 = 0) (n : Nat) :
    ∃ m iv c : Nat → Word,
      Touches (fun b => p.dst ≤ b ∧ b < p.dst + n * p.bs) s
        (forRange n (cbceBlock p) (memReadSeq p.iva p.bs s)).2 ∧
      (forRange n (cbceBlock p) (memReadSeq p.iva p.bs s)).1.length = p.bs ∧
      (∀ j < p.bs,
        (forRange n (cbceBlock p) (memReadSeq p.iva p.bs s)).1[j]? = some (chainWord iv c p.bs n j)) ∧
      (∀ j < p.bs, ∀ w, s.mem.readWord (p.iva + j) = some w → iv j = w) ∧
      (∀ e < n * p.bs, e < p.n →
        readsAs s (forRange n (cbceBlock p) (memReadSeq p.iva p.bs s)).2 p.dst (e / p.bs * p.bs) (p.src + e) (m e)) ∧
      (∀ e, p.n ≤ e → m e = 0#32) ∧
      (∀ f < n * p.bs,
        (forRange n (cbceBlock p) (memReadSeq p.iva p.bs s)).2.mem.readWord (p.dst + f) = some (c f)) ∧
      ∀ i < n, ∀ h < p.bs / 2,
        encryptBlock ⟨m (i * p.bs + 2 * h) ^^^ chainWord iv c p.bs i (2 * h),
            m (i * p.bs + 2 * h + 1) ^^^ chainWord iv c p.bs i (2 * h + 1)⟩ p.key =
          ⟨c (i * p.bs + 2 * h), c (i * p.bs + 2 * h + 1)⟩ := by
  induction n with
  | zero =>
    refine ⟨fun _ => 0, fun j => ((memReadSeq p.iva p.bs s).1[j]?).getD 0, fun _ => 0,
      memReadSeq_touches _ _ _ _, by simp, ?_, ?_, ?_, fun _ _ => rfl, ?_, ?_⟩
    · intro j hj
      rw [forRange_zero, chainWord, if_pos rfl, List.getElem?_eq_getElem (by simpa using hj)]; rfl
    · intro j hj w hw
      dsimp only
      rw [memReadSeq_getElem? hj hw]; rfl
    all_goals intro e he; simp at he
  | succ n ih =>
    obtain ⟨m, iv, c, ht, hl, hch, hiv, hm, hm0, hc, henc⟩ := ih
    rw [forRange_succ]
    generalize forRange n (cbceBlock p) (memReadSeq p.iva p.bs s) = cs at *
    obtain ⟨ch, t⟩ := cs
    dsimp only at *
    have hsome : ∀ b, p.dst ≤ b → b < p.dst + n * p.bs → (t.mem.readWord b).isSome = true := by
      intro b h1 h2
      have := hc (b - p.dst) (by omega)
      rw [show p.dst + (b - p.dst) = b by omega] at this
      rw [this]; rfl
    simp only [cbceBlock]
    have hxl := readPadded_length p.src p.n (n * p.bs) p.bs t
    have hxw := fun j w => readPadded_written (src := p.src) (n := p.n) (off := n * p.bs) (count := p.bs) (j := j)
      (s := t) (w := w)
    have hxp := fun j => readPadded_pad (src := p.src) (n := p.n) (off := n * p.bs) (count := p.bs) (j := j) (s := t)
    have hxm := readPadded_mem p.src p.n (n * p.bs) p.bs t
    have hxt := fun R => readPadded_touches R p.src p.n (n * p.bs) p.bs t
    generalize readPadded p.src p.n (n * p.bs) p.bs t = r at *
    obtain ⟨xs, t1⟩ := r
    dsimp only at *
    have hcl : (cipherWords encryptBlock p.key (xorWords xs ch)).length = p.bs := by simp [hxl, hl]
    have hpair : ∀ h < p.bs / 2, encryptBlock ⟨xs.getD (2 * h) 0 ^^^ chainWord iv c p.bs n (2 * h),
        xs.getD (2 * h + 1) 0 ^^^ chainWord iv c p.bs n (2 * h + 1)⟩ p.key =
        ⟨(cipherWords encryptBlock p.key (xorWords xs ch)).getD (2 * h) 0,
          (cipherWords encryptBlock p.key (xorWords xs ch)).getD (2 * h + 1) 0⟩ := by
      intro h hh
      have hx : ∀ j < p.bs, (xorWords xs ch)[j]? = some (xs.getD j 0 ^^^ chainWord iv c p.bs n j) := by
        intro j hj
        refine xorWords_getElem? ?_ (hch j hj)
        rw [List.getD_eq_getElem?_getD, List.getElem?_eq_getElem (by omega)]; rfl
      obtain ⟨e0, e1⟩ := cipherWords_getElem? (cipher := encryptBlock) (k := p.key) (hx (2 * h) (by omega))
        (hx (2 * h + 1) (by omega))
      rw [getD_of_getElem? e0, getD_of_getElem? e1]
    generalize cipherWords encryptBlock p.key (xorWords xs ch) = ys at *
    have hwr : ∀ b, (memWriteSeq (p.dst + n * p.bs) ys t1).mem.readWord b =
        if p.dst + n * p.bs ≤ b ∧ b < p.dst + n * p.bs + p.bs then ys[b - (p.dst + n * p.bs)]?
        else t.mem.readWord b := by
      intro b; rw [memWriteSeq_readWord, hcl, hxm]
    have hold : ∀ b, p.dst ≤ b → b < p.dst + n * p.bs →
        (memWriteSeq (p.dst + n * p.bs) ys t1).mem.readWord b = t.mem.readWord b := by
      intro b h1 h2; rw [hwr, if_neg (by omega)]
    have hbe : (n + 1) * p.bs = n * p.bs + p.bs := Nat.succ_mul n p.bs
    refine ⟨addBlock p.bs n xs m, iv,
      addBlock p.bs n ys c, ?_, hcl, ?_, hiv, ?_, ?_, ?_, ?_⟩
    · refine (ht.mono fun a ha => ⟨ha.1, by omega⟩).trans ((hxt _).trans (memWriteSeq_touches _ _ _ fun b h1 h2 => ?_))
      rw [hcl] at h2
      exact ⟨by omega, by omega⟩
    · intro j hj
      rw [chainWord_addBlock_next _ hj, getElem?_eq_getD (by omega)]
    · intro e he hen
      rcases block_split he with h | ⟨j, hj, rfl⟩
      · obtain ⟨h1, h2⟩ := block_lt h
        rw [addBlock_old _ _ h]
        exact readsAs_of_later (hm e h hen) fun b h3 h4 => hold b h3 (by omega)
      · rw [block_div hj, addBlock_new _ _ hj]
        exact readsAs_of_later (t := t)
          (readsAs_of_written ht hsome fun z hz => getD_of_getElem? (hxw j z hj hen hz)) hold
    · intro e he
      unfold addBlock
      split
      · rename_i h1
        have h2 : e % p.bs < p.bs ∨ p.bs = 0 := by
          rcases Nat.eq_zero_or_pos p.bs with h | h
          · exact .inr h
          · exact .inl (Nat.mod_lt _ h)
        rcases h2 with h2 | h2
        · rw [List.getD_eq_getElem?_getD, hxp _ h2 ?_]; · rfl
          have := Nat.div_add_mod e p.bs
          rw [h1, Nat.mul_comm] at this; omega
        · rw [h2] at hxl; rw [List.length_eq_zero_iff.1 hxl]; rfl
      · exact hm0 e he
    · intro f hf
      rcases block_split hf with h | ⟨j, hj, rfl⟩
      · rw [addBlock_old _ _ h, hold _ (by omega) (by omega)]; exact hc f h
      · rw [addBlock_new _ _ hj, hwr, if_pos (by omega), show p.dst + (n * p.bs + j) - (p.dst + n * p.bs) = j by omega,
          getElem?_eq_getD (by omega)]
    · intro i hi h hh
      rw [chainWord_addBlock _ (by omega) (by omega), chainWord_addBlock _ (by omega) (by omega), Nat.add_assoc]
      by_cases hin : i = n
      · subst hin
        simp only [addBlock_new _ _ (show 2 * h < p.bs by omega), addBlock_new _ _ (show 2 * h + 1 < p.bs by omega)]
        exact hpair h hh
      · have hb := block_end (bs := p.bs) (show i < n by omega)
        simp only [addBlock_old _ _ (show i * p.bs + 2 * h < n * p.bs by omega),
          addBlock_old _ _ (show i * p.bs + (2 * h + 1) < n * p.bs by omega)]
        exact henc i (by omega) h hh

/-- The first n blocks of CBCD (R162, R164). -/
theorem cbcdLoop_spec (p : CbcPlan) (s : State) (heven : p.bs % 2 = 0) (n : Nat) :
    ∃ iv c : Nat → Word,
      Touches (fun b => p.dst ≤ b ∧ b < p.dst + n * p.bs) s
        (forRange n (cbcdBlock p) (memReadSeq p.iva p.bs s)).2 ∧
      (forRange n (cbcdBlock p) (memReadSeq p.iva p.bs s)).1.length = p.bs ∧
      (∀ j < p.bs,
        (forRange n (cbcdBlock p) (memReadSeq p.iva p.bs s)).1[j]? = some (chainWord iv c p.bs n j)) ∧
      (∀ j < p.bs, ∀ w, s.mem.readWord (p.iva + j) = some w → iv j = w) ∧
      (∀ e < n * p.bs,
        readsAs s (forRange n (cbcdBlock p) (memReadSeq p.iva p.bs s)).2 p.dst (e / p.bs * p.bs) (p.src + e) (c e)) ∧
      ∀ i < n, ∀ h < p.bs / 2,
        (forRange n (cbcdBlock p) (memReadSeq p.iva p.bs s)).2.mem.readWord (p.dst + (i * p.bs + 2 * h)) =
          some ((decryptBlock ⟨c (i * p.bs + 2 * h), c (i * p.bs + 2 * h + 1)⟩ p.key).v0 ^^^
            chainWord iv c p.bs i (2 * h)) ∧
        (forRange n (cbcdBlock p) (memReadSeq p.iva p.bs s)).2.mem.readWord (p.dst + (i * p.bs + 2 * h + 1)) =
          some ((decryptBlock ⟨c (i * p.bs + 2 * h), c (i * p.bs + 2 * h + 1)⟩ p.key).v1 ^^^
            chainWord iv c p.bs i (2 * h + 1)) := by
  induction n with
  | zero =>
    refine ⟨fun j => ((memReadSeq p.iva p.bs s).1[j]?).getD 0, fun _ => 0,
      memReadSeq_touches _ _ _ _, by simp, ?_, ?_, ?_, ?_⟩
    · intro j hj
      rw [forRange_zero, chainWord, if_pos rfl, List.getElem?_eq_getElem (by simpa using hj)]; rfl
    · intro j hj w hw
      dsimp only
      rw [memReadSeq_getElem? hj hw]; rfl
    all_goals intro e he; simp at he
  | succ n ih =>
    obtain ⟨iv, c, ht, hl, hch, hiv, hc, hdec⟩ := ih
    rw [forRange_succ]
    generalize forRange n (cbcdBlock p) (memReadSeq p.iva p.bs s) = cs at *
    obtain ⟨ch, t⟩ := cs
    dsimp only at *
    have hword : ∀ f < n * p.bs, (t.mem.readWord (p.dst + f)).isSome = true := by
      intro f hf
      have h1 := (block_lt hf).1
      have hb : 0 < p.bs := Nat.pos_of_ne_zero fun e => by simp [e] at hf
      have h2 := Nat.div_add_mod f p.bs
      have h3 := Nat.mod_lt f hb
      rw [Nat.mul_comm] at h2
      have h4 := hdec (f / p.bs) h1 (f % p.bs / 2) (by omega)
      rcases Nat.mod_two_eq_zero_or_one (f % p.bs) with h5 | h5
      · rw [show f / p.bs * p.bs + 2 * (f % p.bs / 2) = f by omega] at h4; rw [h4.1]; rfl
      · rw [show f / p.bs * p.bs + 2 * (f % p.bs / 2) + 1 = f by omega] at h4; rw [h4.2]; rfl
    have hsome : ∀ b, p.dst ≤ b → b < p.dst + n * p.bs → (t.mem.readWord b).isSome = true := by
      intro b h1 h2
      rw [show b = p.dst + (b - p.dst) by omega]; exact hword _ (by omega)
    simp only [cbcdBlock]
    have hxl := memReadSeq_length p.bs (p.src + n * p.bs) t
    have hxw := fun j w => memReadSeq_getElem? (n := p.bs) (a := p.src + n * p.bs) (j := j) (s := t) (w := w)
    have hxm := memReadSeq_mem p.bs (p.src + n * p.bs) t
    have hxt := fun R => memReadSeq_touches R p.bs (p.src + n * p.bs) t
    generalize memReadSeq (p.src + n * p.bs) p.bs t = r at *
    obtain ⟨xs, t1⟩ := r
    dsimp only at *
    have hql : (xorWords (cipherWords decryptBlock p.key xs) ch).length = p.bs := by simp [hxl, hl]
    have hpair : ∀ h < p.bs / 2,
        (xorWords (cipherWords decryptBlock p.key xs) ch)[2 * h]? =
          some ((decryptBlock ⟨xs.getD (2 * h) 0, xs.getD (2 * h + 1) 0⟩ p.key).v0 ^^^
            chainWord iv c p.bs n (2 * h)) ∧
        (xorWords (cipherWords decryptBlock p.key xs) ch)[2 * h + 1]? =
          some ((decryptBlock ⟨xs.getD (2 * h) 0, xs.getD (2 * h + 1) 0⟩ p.key).v1 ^^^
            chainWord iv c p.bs n (2 * h + 1)) := by
      intro h hh
      have hx : ∀ j < p.bs, xs[j]? = some (xs.getD j 0) := by
        intro j hj
        rw [List.getD_eq_getElem?_getD, List.getElem?_eq_getElem (by omega)]; rfl
      obtain ⟨e0, e1⟩ := cipherWords_getElem? (cipher := decryptBlock) (k := p.key) (hx (2 * h) (by omega))
        (hx (2 * h + 1) (by omega))
      exact ⟨xorWords_getElem? e0 (hch _ (by omega)), xorWords_getElem? e1 (hch _ (by omega))⟩
    generalize xorWords (cipherWords decryptBlock p.key xs) ch = ys at *
    have hwr : ∀ b, (memWriteSeq (p.dst + n * p.bs) ys t1).mem.readWord b =
        if p.dst + n * p.bs ≤ b ∧ b < p.dst + n * p.bs + p.bs then ys[b - (p.dst + n * p.bs)]?
        else t.mem.readWord b := by
      intro b; rw [memWriteSeq_readWord, hql, hxm]
    have hold : ∀ b, p.dst ≤ b → b < p.dst + n * p.bs →
        (memWriteSeq (p.dst + n * p.bs) ys t1).mem.readWord b = t.mem.readWord b := by
      intro b h1 h2; rw [hwr, if_neg (by omega)]
    have hbe : (n + 1) * p.bs = n * p.bs + p.bs := Nat.succ_mul n p.bs
    refine ⟨iv, addBlock p.bs n xs c, ?_, hxl, ?_, hiv, ?_, ?_⟩
    · refine (ht.mono fun a ha => ⟨ha.1, by omega⟩).trans ((hxt _).trans (memWriteSeq_touches _ _ _ fun b h1 h2 => ?_))
      rw [hql] at h2
      exact ⟨by omega, by omega⟩
    · intro j hj
      rw [chainWord_addBlock_next _ hj, getElem?_eq_getD (by omega)]
    · intro e he
      rcases block_split he with h | ⟨j, hj, rfl⟩
      · obtain ⟨h1, h2⟩ := block_lt h
        rw [addBlock_old _ _ h]
        exact readsAs_of_later (hc e h) fun b h3 h4 => hold b h3 (by omega)
      · rw [block_div hj, addBlock_new _ _ hj]
        exact readsAs_of_later (t := t) (readsAs_of_written ht hsome fun z hz =>
          getD_of_getElem? (hxw j z hj (by rw [Nat.add_assoc]; exact hz))) hold
    · intro i hi h hh
      have hb := block_end (bs := p.bs) hi
      rw [chainWord_addBlock _ (by omega) (by omega), chainWord_addBlock _ (by omega) (by omega), Nat.add_assoc]
      by_cases hin : i = n
      · subst hin
        simp only [addBlock_new _ _ (show 2 * h < p.bs by omega), addBlock_new _ _ (show 2 * h + 1 < p.bs by omega)]
        rw [hwr, if_pos (by omega), show p.dst + (i * p.bs + 2 * h) - (p.dst + i * p.bs) = 2 * h by omega, hwr,
          if_pos (by omega), show p.dst + (i * p.bs + (2 * h + 1)) - (p.dst + i * p.bs) = 2 * h + 1 by omega]
        exact hpair h hh
      · have hb' := block_end (bs := p.bs) (show i < n by omega)
        simp only [addBlock_old _ _ (show i * p.bs + 2 * h < n * p.bs by omega),
          addBlock_old _ _ (show i * p.bs + (2 * h + 1) < n * p.bs by omega)]
        rw [hold _ (by omega) (by omega), hold _ (by omega) (by omega)]
        exact hdec i (by omega) h hh

/-! ## GENIV -/

/-- The generator states of a GENIV: g, then one step of Next for each word. -/
def genStates (c : PrngChoice) (g : PrngState) : Nat → PrngState
  | 0 => g
  | n + 1 => (nextFn c (genStates c g n)).2

/-- The first n words of GENIV (R185). -/
theorem genivLoop_spec (dst : Nat) (g : PrngState) (s : State) (n : Nat) :
    (forRange n (genivWord dst) (g, s)).1 = genStates s.params.prng g n ∧
    ∀ i < n, (forRange n (genivWord dst) (g, s)).2.mem.readWord (dst + i) =
      some (ivRange s.ctrl (nextFn s.params.prng (genStates s.params.prng g i)).1) := by
  induction n with
  | zero => exact ⟨rfl, fun i hi => absurd hi (by omega)⟩
  | succ n ih =>
    obtain ⟨h1, h2⟩ := ih
    have ht := genivLoop_touches dst n g s
    rw [forRange_succ]
    generalize forRange n (genivWord dst) (g, s) = gs at *
    obtain ⟨g', t⟩ := gs
    dsimp only at *
    subst h1
    simp only [genivWord, ht.params_eq, ht.ctrl_eq]
    refine ⟨rfl, fun i hi => ?_⟩
    rw [memWrite_readWord]
    by_cases hin : i = n
    · subst hin; rw [if_pos rfl]
    · rw [if_neg (by omega)]; exact h2 i (by omega)

/-! ## Commands that completed without an error -/

theorem next_inj {s t : State} (h : (Host.Outcome.next s : Host.Outcome State Fault Refusal) = .next t) : s = t := by
  simpa using h

/-- A command that completed with STATUS.ERR = 0 passed its check part and ran its effect part. -/
theorem runCommand_noErr {α : Type} {check : State → Except CmdError α} {effect : α → State → State} {s t : State}
    (h : runCommand check effect s = .next t) (ht : t.status.getLsbD 2 = false) :
    ∃ a, check s = .ok a ∧ t = complete 0 (effect a s) := by
  rcases runCommand_cases check effect s with ⟨e, -, h2⟩ | ⟨a, h1, h2⟩
  · rw [← next_inj (h2.symm.trans h), raiseError, complete_eq_statusAfter] at ht
    have h3 := (statusAfter_fields (c := e.code) (by have := e.code_le_four; omega) s).2.2.1
    simp only [h3] at ht
    simp [e.code_ne_zero] at ht
  · exact ⟨a, h1, (next_inj (h2.symm.trans h)).symm⟩

theorem effBS_congr {s u : State} (h1 : u.bsize = s.bsize) (h2 : u.ctrl.getLsbD 0 = s.ctrl.getLsbD 0)
    (h3 : u.params = s.params) : effBS u = effBS s := by
  unfold effBS ctrlOddbsCompat; rw [h1, h2, h3]

/-- Under legal parameters a length that fits the buffer fits a register. -/
theorem legal_memWords_lt {p : Params} (h : p.legal) : p.memWords < 2 ^ 32 := by
  obtain ⟨-, ⟨k, hk, e⟩, -⟩ := h
  rw [List.mem_range] at hk
  rw [e]; exact Nat.pow_lt_pow_right (by omega) (by omega)

/-- Every offset is the first or the second word of a cipher pair of its block. -/
theorem block_pair {bs e : Nat} (hb : 0 < bs) (hev : bs % 2 = 0) :
    ∃ h, h < bs / 2 ∧ (e = e / bs * bs + 2 * h ∨ e = e / bs * bs + 2 * h + 1) := by
  have h1 := Nat.div_add_mod e bs
  have h2 := Nat.mod_lt e hb
  rw [Nat.mul_comm] at h1
  exact ⟨e % bs / 2, by omega, by omega⟩

/-! ## Runs -/

/-- A run takes one step and goes on. -/
theorem run_succ {M : Host.Core} {s t : M.State} (h : M.step s = .next t) (k : Nat) : M.run (k + 1) s = M.run k t := by
  rw [Host.Core.run, h]

end Sys2Proof.Machine
end

