-- ==== Sys2Proof/Laws/PerInstr.lean ====
section
/-! SUPPORT. Family `Words`: what the command word of each instruction is (spec/30_encoding.md R80, R82): the three checks
of R82 pass on it, it fits the nine defined bits, and its opcode field is the instruction's opcode. -/

/-- The word of an instruction is one that R82 lists, and only its opcode and R fields are used. -/
def Sys2Proof.Laws.Words.Statement (i : Sys2Proof.Instr) : Prop :=
  i.wellFormed = true ∧ Sys2Proof.legalWord (Sys2Proof.encode i) = true ∧ (Sys2Proof.encode i).toNat < 512 ∧
    Sys2Proof.opcodeField (Sys2Proof.encode i) = Sys2Proof.opcodeOf i ∧
    (Sys2Proof.reseedField (Sys2Proof.encode i) == 1) = Sys2Proof.reseedBitOf i

namespace Sys2Proof.Laws.Words

theorem add : Statement .add := by unfold Statement; decide
theorem sub : Statement .sub := by unfold Statement; decide
theorem mul : Statement .mul := by unfold Statement; decide
theorem shl : Statement .shl := by unfold Statement; decide
theorem shr : Statement .shr := by unfold Statement; decide
theorem xor : Statement .xor := by unfold Statement; decide
theorem encb : Statement .encb := by unfold Statement; decide
theorem decb : Statement .decb := by unfold Statement; decide
theorem pad : Statement .pad := by unfold Statement; decide
theorem split : Statement .split := by unfold Statement; decide
theorem xorv : Statement .xorv := by unfold Statement; decide
theorem cbce : Statement .cbce := by unfold Statement; decide
theorem cbcd : Statement .cbcd := by unfold Statement; decide
theorem seed : Statement .seed := by unfold Statement; decide
theorem geniv (reseed : Bool) : Statement (.geniv reseed) := by unfold Statement; cases reseed <;> decide

end Sys2Proof.Laws.Words
end

