-- ==== Sys2Proof/Tests/Slice0.lean ====
section
/-! SUPPORT. Tests. Expected values come from spec/30_encoding.md R82 and spec/95_test_vectors.md (the V numbers); then one
witness per hypothesis of the statements. -/
open Sys2Proof Sys2Proof.Machine

namespace Sys2Proof.Tests

/-- The default parameters of R11 with a concrete P_BASE. -/
def params : Params := { base := 0x40000000, memWords := 1024, bsMax := 64, prng := .lcg }

/-- A block just out of reset. -/
def s0 : State := State.resetWith params

/-- The state an outcome leaves (s0 when it leaves none). -/
def after : Host.Outcome State Fault Refusal → State
  | .next t => t
  | .fault _ => s0
  | .refused _ => s0

/-- A field of the next state, if there is one. -/
def got {α : Type} (f : State → α) : Host.Outcome State Fault Refusal → Option α
  | .next t => some (f t)
  | .fault _ => none
  | .refused _ => none

/-- n buffer words from word address a. -/
def words (a n : Nat) (s : State) : List (Option Word) := (List.range n).map fun j => s.mem.readWord (a + j)

/-- s with the words ws at word address a. -/
def put (a : Nat) (ws : List Word) (s : State) : State := memWriteSeq a ws s

/-- Every command leaves a next state. -/
theorem exec_after (i : Instr) (s : State) : exec i s = .next (after (exec i s)) := by
  rcases exec_cases i s with ⟨e, -, h⟩ | ⟨t, h, -⟩ <;> rw [h] <;> rfl

/-! ## Decoding: the sixteen words of R82 and V60 to V60h -/

theorem test_decode_add : decode 0x00000001#32 = .ok .add := by decide
theorem test_decode_sub : decode 0x00000002#32 = .ok .sub := by decide
theorem test_decode_mul : decode 0x00000003#32 = .ok .mul := by decide
theorem test_decode_shl : decode 0x00000004#32 = .ok .shl := by decide
theorem test_decode_shr : decode 0x00000005#32 = .ok .shr := by decide
theorem test_decode_xor : decode 0x00000006#32 = .ok .xor := by decide
theorem test_decode_encb : decode 0x00000010#32 = .ok .encb := by decide
theorem test_decode_decb : decode 0x00000011#32 = .ok .decb := by decide
theorem test_decode_pad : decode 0x00000020#32 = .ok .pad := by decide
theorem test_decode_split : decode 0x00000021#32 = .ok .split := by decide
theorem test_decode_xorv : decode 0x00000030#32 = .ok .xorv := by decide
theorem test_decode_cbce : decode 0x00000031#32 = .ok .cbce := by decide
theorem test_decode_cbcd : decode 0x00000032#32 = .ok .cbcd := by decide
theorem test_decode_seed : decode 0x00000040#32 = .ok .seed := by decide
theorem test_decode_geniv : decode 0x00000041#32 = .ok (.geniv false) := by decide
/-- Bit 8 set: 0x100 + 0x41. -/
theorem test_decode_geniv_reseed : decode (0x00000100#32 ||| 0x00000041#32) = .ok (.geniv true) := by decide

/-- V60 to V60g: every word the vectors list is Illegal, for its own reason. -/
theorem test_decode_illegal :
    decode 0x00000000#32 = .error .unlistedOpcode ∧ decode 0x00000007#32 = .error .unlistedOpcode ∧
    decode 0x00000042#32 = .error .unlistedOpcode ∧ decode 0x000000FF#32 = .error .unlistedOpcode ∧
    decode 0x00000101#32 = .error .reseedFlag ∧ decode 0x00000200#32 = .error .reservedBits ∧
    decode 0x00000341#32 = .error .reservedBits ∧ decode 0x80000001#32 = .error .reservedBits := by decide

theorem test_decodeTableWord : decodeTableWord 32 0x141 = some (.geniv true) ∧ decodeTableWord 32 0x101 = none := by
  decide

/-! ## Well-formedness: an ill-formed word for each check of R82 -/

theorem test_illformed_opcode : opcodeListed 0x00000007#32 = false ∧ legalWord 0x00000007#32 = false := by decide
theorem test_illformed_reserved : reservedClear 0x00000201#32 = false ∧ legalWord 0x00000201#32 = false := by decide
theorem test_illformed_reseed : reseedAllowed 0x00000101#32 = false ∧ legalWord 0x00000101#32 = false := by decide
theorem test_wellformed : (Instr.geniv true).wellFormed = true ∧ legalWord 0x00000141#32 = true := by decide

/-! ## Effects, from the vectors -/

/-- s0 with arithmetic operands. -/
def ops (a b : Word) : State := { s0 with opa := a, opb := b }

/-- V10. -/
theorem test_add : got (fun t => (t.res, t.status)) (exec .add (ops 0xFFFFFFFF 1)) = some (0, 0x00000002) := by decide
/-- V11a. -/
theorem test_sub : got (·.res) (exec .sub (ops 5 7)) = some 0xFFFFFFFE := by decide
/-- V12b. -/
theorem test_mul : got (·.res) (exec .mul (ops 0x12345678 0x9ABCDEF0)) = some 0x242D2080 := by decide
/-- V13c, V13e. -/
theorem test_shl : got (·.res) (exec .shl (ops 0xDEADBEEF 4)) = some 0xEADBEEF0 ∧
    got (·.res) (exec .shl (ops 1 32)) = some 0 := by decide
/-- V13d: the whole amount counts. -/
theorem test_shl_whole_amount : got (·.res) (exec .shl (ops 0xFFFFFFFF 0xFFFFFFFF)) = some 0 := by decide
/-- V14, V14b. -/
theorem test_shr : got (·.res) (exec .shr (ops 0x80000000 31)) = some 1 ∧
    got (·.res) (exec .shr (ops 0xFFFFFFFF 5)) = some 0x07FFFFFF := by decide
/-- V14d. -/
theorem test_shr_whole_amount : got (·.res) (exec .shr (ops 0xFFFFFFFF 33)) = some 0 := by decide
/-- V15. -/
theorem test_xor : got (·.res) (exec .xor (ops 0xFFFFFFFF 0x12345678)) = some 0xEDCBA987 := by decide

/-- V1's key and block. -/
def v1State : State :=
  { s0 with k0 := 0x00217A5C, k1 := 0x0013B047, k2 := 0x000904AD, k3 := 0x000E8730, v0 := 0x001C1073, v1 := 0x0012EC82 }

/-- V1. -/
theorem test_encb : got (fun t => (t.v0, t.v1)) (exec .encb v1State) = some (0x2AAB9B34, 0xD4D3B03B) := by decide
/-- V22: key words that all differ. -/
theorem test_encb_key_order :
    encryptBlock ⟨0x01234567, 0x89ABCDEF⟩ ⟨0x00112233, 0x44556677, 0x8899AABB, 0xCCDDEEFF⟩ = ⟨0x126C6B92, 0xC0653A3E⟩ := by
  decide
/-- V2. -/
theorem test_decb :
    got (fun t => (t.v0, t.v1)) (exec .decb { v1State with v0 := 0x2AAB9B34, v1 := 0xD4D3B03B }) =
      some (0x001C1073, 0x0012EC82) := by decide +kernel
/-- V3, V4: the trace after one round each way. -/
theorem test_round_traces :
    encryptRound ⟨0x00217A5C, 0x0013B047, 0x000904AD, 0x000E8730⟩ ⟨0, 0x001C1073, 0x0012EC82⟩ =
      ⟨0x9E3779B9, 0x9F2A745F, 0xCAE96AD9⟩ ∧
    decryptRound ⟨0x00217A5C, 0x0013B047, 0x000904AD, 0x000E8730⟩ ⟨0xC6EF3720, 0x2AAB9B34, 0xD4D3B03B⟩ =
      ⟨0x28B7BD67, 0x3EE02418, 0x7A982E8B⟩ := by decide

/-- V30's setup. -/
def padState : State := { s0 with len := 5, mult := 4, padv := 0xFFFFFFFF }
/-- V30. -/
theorem test_pad : got (fun t => (t.outlen, t.status, words 4 5 t)) (exec .pad padState) =
    some (8, 0x00000002, [none, some 0xFFFFFFFF, some 0xFFFFFFFF, some 0xFFFFFFFF, none]) := by decide
/-- V33, V34: range. -/
theorem test_pad_range :
    got (·.status) (exec .pad { s0 with src := 1020, len := 3, mult := 8 }) = some 0x00000036 ∧
    got (·.status) (exec .pad { s0 with src := 0xFFFFFFFF, len := 0, mult := 1 }) = some 0x00000002 := by decide

/-- V35's setup. -/
def splitState : State := { s0 with src := 0x10, len := 15, bsize := 8 }
/-- V35. -/
theorem test_split : got (fun t => (t.outlen, t.nblk, words 0x1E 3 t)) (exec .split splitState) =
    some (16, 2, [none, some 0, none]) := by decide
/-- V36, V36a, V36d: the odd block size. -/
theorem test_split_odd :
    got (·.status) (exec .split { s0 with len := 5, bsize := 7 }) = some 0x00000026 ∧
    got (fun t => (t.status, t.outlen, t.nblk, t.bsize)) (exec .split { s0 with len := 5, bsize := 7, ctrl := 1 }) =
      some (0x00000002, 8, 1, 7) ∧
    got (·.status) (exec .split { s0 with bsize := 0xFFFFFFFF, ctrl := 1 }) = some 0x00000026 := by decide

/-- V49's setup. -/
def xorvState : State :=
  put 0x20 [0xFFFFFFFF, 2, 0x80000000] (put 0x10 [1, 2, 3] { s0 with src := 0x10, ivaddr := 0x20, dst := 0x30, len := 3, ivlen := 3 })
/-- V49. -/
theorem test_xorv : got (fun t => (t.outlen, words 0x30 3 t)) (exec .xorv xorvState) =
    some (3, [some 0xFFFFFFFE, some 0, some 0x80000003]) := by decide
/-- V49, third item. -/
theorem test_xorv_mismatch : got (fun t => (t.status, t.outlen)) (exec .xorv { xorvState with ivlen := 2 }) =
    some (0x00000016, 0) := by decide

/-- V45's setup. -/
def cbcState : State :=
  put 0x10 [1, 2, 3] (put 0 [0xAAAAAAAA, 0x55555555]
    { s0 with bsize := 2, k0 := 1, k1 := 2, k2 := 3, k3 := 4, ivlen := 2, src := 0x10, len := 3, dst := 0x20 })
/-- V45. -/
theorem test_cbce : got (fun t => (t.outlen, t.nblk, words 0x20 4 t)) (exec .cbce cbcState) =
    some (4, 2, [some 0x82483363, some 0xB07C2945, some 0x54EB9C44, some 0x1DCED90B]) := by decide
/-- V48, the last three rows: the order of the checks. -/
theorem test_cbce_errors :
    got (·.status) (exec .cbce { s0 with bsize := 3, ivlen := 5, src := 2000, len := 10 }) = some 0x00000026 ∧
    got (·.status) (exec .cbce { s0 with bsize := 4, ivlen := 5, src := 2000, len := 10 }) = some 0x00000016 ∧
    got (·.status) (exec .cbce { s0 with bsize := 4, ivlen := 4, src := 2000, len := 10 }) = some 0x00000036 := by decide

/-- V45's ciphertext, to be decrypted in place. -/
def cbcdState : State :=
  put 0x20 [0x82483363, 0xB07C2945, 0x54EB9C44, 0x1DCED90B] (put 0 [0xAAAAAAAA, 0x55555555]
    { s0 with bsize := 2, k0 := 1, k1 := 2, k2 := 3, k3 := 4, ivlen := 2, src := 0x20, len := 4, dst := 0x20 })
/-- V45, decryption; the second block needs the first ciphertext block, which the in-place write has overwritten. -/
theorem test_cbcd : got (fun t => (t.outlen, t.nblk, words 0x20 4 t)) (exec .cbcd cbcdState) =
    some (4, 2, [some 1, some 2, some 3, some 0]) := by decide +kernel
/-- V48, the first two rows. -/
theorem test_cbcd_errors :
    got (·.status) (exec .cbcd { s0 with bsize := 4, ivlen := 3, len := 6 }) = some 0x00000016 ∧
    got (·.status) (exec .cbcd { s0 with bsize := 4, ivlen := 4, len := 6 }) = some 0x00000016 := by decide

/-- V54a. -/
theorem test_seed : got (·.prngs) (exec .seed { s0 with seed := 0x12345678 }) = some 0x12345678 := by decide

/-- V50's setup. -/
def genivState : State := { s0 with prngs := 9, len := 4 }
/-- V50. -/
theorem test_geniv_reseed : got (fun t => (t.prngs, t.outlen, words 0 4 t)) (exec (.geniv true) genivState) =
    some (0xAAF95334, 4, [some 0x3C6EF35F, some 0x47502932, some 0xD1CCF6E9, some 0xAAF95334]) := by decide
/-- V53's range with V52's continuation: the state goes on, the words are the raw words modulo 34. -/
theorem test_geniv_legacy :
    got (fun t => (t.prngs, words 2 2 t)) (exec (.geniv false) { s0 with prngs := 0x47502932, dst := 2, len := 2, ctrl := 2 }) =
      some (0xAAF95334, [some 25, some 10]) := by decide

/-! ## Steps, the host and reset -/

/-- The table's word runs as the first command after reset, with operands 0: 0 - 0 = 0, DONE. -/
theorem test_withFetchWord :
    got (fun t => (t.res, t.status, t.cmd)) (step (State.reset.withFetchWord 32 0x00000002)) = some (0, 2, 2) := by decide

/-- V60d: an Illegal word. -/
theorem test_illegal_word : got (·.status) (step (s0.withFetchWord 32 0x00000101)) = some 0x00000046 := by decide

/-- The state with one bus event to come. -/
def ev (e : BusEvent) (s : State) : State := { s with events := [e] }

/-- V61: acceptance, from a state with an old error and OVR. -/
theorem test_accept : got (fun t => (t.status, t.cmd)) (step (ev (.write 0x40000000 4 0x07) { s0 with status := 0x4E })) =
    some (0x00000001, 0x07) := by decide

/-- V62: a write while busy is dropped, and OVR survives completion. -/
theorem test_dropped_write :
    got (fun t => (t.opa, t.status)) (step (ev (.write 0x40000034 4 5) { s0 with status := 1, opa := 3 })) =
      some (3, 0x00000009) ∧
    got (·.status) (exec .add { s0 with status := 9 }) = some 0x0000000A := by decide

/-- R241: STATUS may be read while busy. -/
theorem test_poll : got (·.rdata) (step (ev (.read 0x40000004 4) { s0 with status := 1 })) = some 1 := by decide

/-- V64 and R39: unmapped offsets read 0. -/
theorem test_unmapped : got (·.rdata) (step (ev (.read 0x40000FFC 4) { s0 with rdata := 7 })) = some 0 := by decide

/-- R27: a write of all ones to CTRL keeps two bits. -/
theorem test_ctrl_bits : got (·.ctrl) (step (ev (.write 0x40000008 4 0xFFFFFFFF) s0)) = some 3 := by decide

/-- R60, R65: the word at 0x1004 is word 1, its bytes most significant first. -/
theorem test_buffer_write :
    got (fun t => (t.mem, words 1 1 t)) (step (ev (.write 0x40001004 4 0x2AAB9B34) s0)) =
      some ([(0x1004, 0x2A), (0x1005, 0xAB), (0x1006, 0x9B), (0x1007, 0x34)], [some 0x2AAB9B34]) := by decide

/-- W11. -/
theorem test_serialise : serializeWords [0x2AAB9B34, 0xD4D3B03B] = [0x2A, 0xAB, 0x9B, 0x34, 0xD4, 0xD3, 0xB0, 0x3B] := by
  decide

/-- V63. -/
theorem test_reset : got (fun t => (t.status, t.opa, t.mem)) (step (ev .reset (put 0 [1] { s0 with status := 1, opa := 3 }))) =
    some (0, 0, []) := by decide

/-- R62, R60: what is not part of the interface is refused. -/
theorem test_refused :
    got (·.rdata) (step (ev (.read 0x40000002 4) s0)) = none ∧ got (·.rdata) (step (ev (.read 0x40000000 2) s0)) = none ∧
    got (·.rdata) (step (ev (.read 0x40002000 4) s0)) = none ∧ got (·.rdata) (step (ev (.read 0x3FFFFFFC 4) s0)) = none := by
  decide

theorem test_memory_form : State.reset.mem.wf ∧ (put 2 [1] (put 5 [2, 3] s0)).mem.wf := by decide

/-! ## Witnesses: for every statement with hypotheses, a state and operands that meet them together

Several clauses of one statement have one witness each, at a boundary value where the clause has one. -/

theorem params_legal : params.legal := by decide

theorem witness_DecodeOfEncode :
    (Instr.geniv true).wellFormed = true ∧ decode 0x00000141#32 = .ok (.geniv true) := by decide

theorem witness_ArithmeticLaws : (31#32).toNat < 32 := by decide

theorem witness_RoundupIsLeastMultiple : 0 < 4 ∧ 8 % 4 = 0 ∧ 5 ≤ 8 ∧ 0 < 1 := by decide

theorem witness_TwoStagePaddingIsOne : 0 < 8 ∧ 8 % 2 = 0 := by decide

theorem witness_EffectiveBlockSize_zero : s0.bsize.toNat = 0 := by decide
theorem witness_EffectiveBlockSize_odd :
    ({ s0 with bsize := 7 } : State).bsize.toNat % 2 = 1 ∧ s0.ctrl.getLsbD 0 = false := by decide
/-- s0 with a block size and CTRL. -/
def sized (b c : Word) : State := { s0 with bsize := b, ctrl := c }
/-- 65 + 1 is the first size above P_BS_MAX = 64, and 0xFFFFFFFF is the largest odd BSIZE (V36d). -/
theorem witness_EffectiveBlockSize_odd_large :
    ∀ s ∈ [sized 65 1, sized 0xFFFFFFFF 1], s.bsize.toNat % 2 = 1 ∧ s.ctrl.getLsbD 0 = true ∧
      s.params.bsMax < s.bsize.toNat + 1 := by decide +kernel
theorem witness_EffectiveBlockSize_odd_compat :
    ∀ s ∈ [sized 1 1, sized 63 1], s.bsize.toNat % 2 = 1 ∧ s.ctrl.getLsbD 0 = true ∧
      s.bsize.toNat + 1 ≤ s.params.bsMax := by decide +kernel
theorem witness_EffectiveBlockSize_large :
    (sized 66 0).bsize.toNat % 2 = 0 ∧ (sized 66 0).params.bsMax < (sized 66 0).bsize.toNat := by decide
theorem witness_EffectiveBlockSize_even :
    ∀ s ∈ [sized 2 0, sized 64 0], s.bsize.toNat ≠ 0 ∧ s.bsize.toNat % 2 = 0 ∧ s.bsize.toNat ≤ s.params.bsMax := by
  decide +kernel

/-- The last region that fits, and the first that does not. -/
theorem witness_regions : regionFits s0 1022 2 ∧ ¬ regionFits s0 1022 3 ∧ regionFits s0 0xFFFFFFFF 0 := by
  unfold regionFits; decide

theorem witness_PadRunsOrReports :
    padState.mult.toNat ≠ 0 ∧ regionFits padState padState.src.toNat (roundup padState.len.toNat padState.mult.toNat) := by
  unfold regionFits; decide
theorem witness_PadRunsOrReports_zero : s0.mult.toNat = 0 := by decide
/-- V33. -/
theorem witness_PadRunsOrReports_range : ∃ s : State,
    s.mult.toNat ≠ 0 ∧ ¬ regionFits s s.src.toNat (roundup s.len.toNat s.mult.toNat) :=
  ⟨{ s0 with src := 1020, len := 3, mult := 8 }, by unfold regionFits; decide⟩

theorem witness_SplitRunsOrReports :
    effBS splitState = .ok 8 ∧ regionFits splitState splitState.src.toNat (roundup splitState.len.toNat 8) :=
  ⟨rfl, by unfold regionFits; decide⟩
theorem witness_SplitRunsOrReports_size : effBS s0 = .error .invalidBlockSize := rfl
theorem witness_SplitRunsOrReports_range : ∃ s : State,
    effBS s = .ok 8 ∧ ¬ regionFits s s.src.toNat (roundup s.len.toNat 8) :=
  ⟨{ s0 with src := 1020, len := 3, bsize := 8 }, rfl, by unfold regionFits; decide⟩

theorem witness_FramingIsIdempotent :
    padState.params.legal ∧ exec .pad padState = .next (after (exec .pad padState)) ∧
      (after (exec .pad padState)).status.getLsbD 2 = false ∧
      exec .split splitState = .next (after (exec .split splitState)) ∧
      (after (exec .split splitState)).status.getLsbD 2 = false :=
  ⟨params_legal, exec_after _ _, by decide, exec_after _ _, by decide⟩

theorem witness_XorvRunsOrReports :
    xorvState.len.toNat = xorvState.ivlen.toNat ∧ regionFits xorvState xorvState.src.toNat xorvState.len.toNat ∧
      regionFits xorvState xorvState.ivaddr.toNat xorvState.len.toNat ∧
      regionFits xorvState xorvState.dst.toNat xorvState.len.toNat := by
  unfold regionFits; decide
theorem witness_XorvRunsOrReports_length : ∃ s : State, s.len.toNat ≠ s.ivlen.toNat := ⟨{ s0 with len := 3 }, by decide⟩
theorem witness_XorvRunsOrReports_range : ∃ s : State, s.len.toNat = s.ivlen.toNat ∧
    ¬ (regionFits s s.src.toNat s.len.toNat ∧ regionFits s s.ivaddr.toNat s.len.toNat ∧
      regionFits s s.dst.toNat s.len.toNat) :=
  ⟨{ s0 with len := 3, ivlen := 3, dst := 1022 }, by unfold regionFits; decide⟩

theorem witness_CbceRunsOrReports :
    effBS cbcState = .ok 2 ∧ cbcState.ivlen.toNat = 2 ∧ regionFits cbcState cbcState.src.toNat cbcState.len.toNat ∧
      regionFits cbcState cbcState.dst.toNat (roundup cbcState.len.toNat 2) ∧
      regionFits cbcState cbcState.ivaddr.toNat 2 :=
  ⟨rfl, by unfold regionFits; decide⟩
/-- V48: the IV's length, and the IV's region, which is checked even for an empty message. -/
theorem witness_CbceRunsOrReports_errors : ∃ s u : State,
    effBS s0 = .error .invalidBlockSize ∧ effBS s = .ok 4 ∧ s.ivlen.toNat ≠ 4 ∧ effBS u = .ok 64 ∧ u.ivlen.toNat = 64 ∧
      ¬ (regionFits u u.src.toNat u.len.toNat ∧ regionFits u u.dst.toNat (roundup u.len.toNat 64) ∧
        regionFits u u.ivaddr.toNat 64) :=
  ⟨{ s0 with bsize := 4, ivlen := 5 }, { s0 with bsize := 64, ivlen := 64, ivaddr := 1000 }, rfl, rfl, by decide, rfl,
    by unfold regionFits; decide⟩

theorem witness_CbcdRunsOrReports :
    effBS cbcdState = .ok 2 ∧ cbcdState.ivlen.toNat = 2 ∧ cbcdState.len.toNat % 2 = 0 ∧
      regionFits cbcdState cbcdState.src.toNat cbcdState.len.toNat ∧
      regionFits cbcdState cbcdState.dst.toNat cbcdState.len.toNat ∧ regionFits cbcdState cbcdState.ivaddr.toNat 2 :=
  ⟨rfl, by unfold regionFits; decide⟩
/-- V48: a wrong IV length, a short final block, and a region that does not fit. -/
theorem witness_CbcdRunsOrReports_errors : ∃ s u v : State,
    effBS s0 = .error .invalidBlockSize ∧ effBS s = .ok 4 ∧ s.ivlen.toNat ≠ 4 ∧
      effBS u = .ok 4 ∧ u.ivlen.toNat = 4 ∧ u.len.toNat % 4 ≠ 0 ∧
      effBS v = .ok 4 ∧ v.ivlen.toNat = 4 ∧ v.len.toNat % 4 = 0 ∧
      ¬ (regionFits v v.src.toNat v.len.toNat ∧ regionFits v v.dst.toNat v.len.toNat ∧ regionFits v v.ivaddr.toNat 4) :=
  ⟨{ s0 with bsize := 4, ivlen := 3 }, { s0 with bsize := 4, ivlen := 4, len := 6 },
    { s0 with bsize := 4, ivlen := 4, len := 8, src := 1017 }, rfl, rfl, by decide, rfl, by decide, by decide, rfl,
    by unfold regionFits; decide⟩

/-- V45's words. -/
def cbcMessage (e : Nat) : Word := if e = 0 then 1 else if e = 1 then 2 else 3
def cbcIv (j : Nat) : Word := if j = 0 then 0xAAAAAAAA else 0x55555555
/-- The state after V45's CBCE, set up for the CBCD. -/
def cbcMiddle : State := { after (exec .cbce cbcState) with src := 0x20, len := 4, dst := 0x20 }

theorem witness_CbcRoundTrip :
    cbcState.params.legal ∧ effBS cbcState = .ok 2 ∧ exec .cbce cbcState = .next (after (exec .cbce cbcState)) ∧
    (after (exec .cbce cbcState)).status.getLsbD 2 = false ∧
    (∀ e < cbcState.len.toNat, cbcState.mem.readWord (cbcState.src.toNat + e) = some (cbcMessage e) ∧
      ¬ (cbcState.dst.toNat ≤ cbcState.src.toNat + e ∧ cbcState.src.toNat + e < cbcState.dst.toNat + e / 2 * 2)) ∧
    (∀ j < 2, cbcState.mem.readWord (cbcState.ivaddr.toNat + j) = some (cbcIv j)) ∧
    cbcMiddle.k0 = cbcState.k0 ∧ cbcMiddle.k1 = cbcState.k1 ∧ cbcMiddle.k2 = cbcState.k2 ∧ cbcMiddle.k3 = cbcState.k3 ∧
    cbcMiddle.bsize = cbcState.bsize ∧ cbcMiddle.ctrl.getLsbD 0 = cbcState.ctrl.getLsbD 0 ∧
    cbcMiddle.ivaddr = cbcState.ivaddr ∧ cbcMiddle.ivlen = cbcState.ivlen ∧ cbcMiddle.params = cbcState.params ∧
    cbcMiddle.src = cbcState.dst ∧ cbcMiddle.len = (after (exec .cbce cbcState)).outlen ∧
    (∀ j < 2, cbcMiddle.mem.readWord (cbcMiddle.ivaddr.toNat + j) = some (cbcIv j)) ∧
    (∀ f < (after (exec .cbce cbcState)).outlen.toNat,
      cbcMiddle.mem.readWord (cbcMiddle.src.toNat + f) =
        (after (exec .cbce cbcState)).mem.readWord (cbcState.dst.toNat + f) ∧
      ¬ (cbcMiddle.dst.toNat ≤ cbcMiddle.src.toNat + f ∧ cbcMiddle.src.toNat + f < cbcMiddle.dst.toNat + f / 2 * 2)) ∧
    regionFits cbcMiddle cbcMiddle.dst.toNat (after (exec .cbce cbcState)).outlen.toNat := by
  refine ⟨params_legal, rfl, exec_after .cbce cbcState, ?_⟩
  unfold regionFits
  decide +kernel

/-- Flipping bit 31 of the first ciphertext word of V45. -/
theorem witness_CbcErrorPropagation :
    effBS cbcdState = .ok 2 ∧ 0 < cbcdState.len.toNat ∧ 31 < 32 ∧
    (∀ e < cbcdState.len.toNat, (cbcdState.mem.readWord (cbcdState.src.toNat + e)).isSome = true ∧
      ¬ (cbcdState.dst.toNat ≤ cbcdState.src.toNat + e ∧ cbcdState.src.toNat + e < cbcdState.dst.toNat + e / 2 * 2)) ∧
    (∀ j < 2, (cbcdState.mem.readWord (cbcdState.ivaddr.toNat + j)).isSome = true ∧
      cbcdState.ivaddr.toNat + j ≠ cbcdState.src.toNat + 0) ∧
    cbcdState.mem.readWord (cbcdState.src.toNat + 0) = some 0x82483363 ∧
    exec .cbcd cbcdState = .next (after (exec .cbcd cbcdState)) ∧
    (after (exec .cbcd cbcdState)).status.getLsbD 2 = false ∧
    (∃ t', exec .cbcd { cbcdState with
      mem := cbcdState.mem.writeWord (cbcdState.src.toNat + 0) (0x82483363 ^^^ (1#32 <<< 31)) } = .next t') ∧
    0 + 2 < cbcdState.len.toNat :=
  ⟨rfl, by decide, by decide, by decide, by decide, by decide, exec_after _ _, by decide, ⟨_, exec_after _ _⟩, by decide⟩

theorem witness_SeedCompletes : s0.params.prng = .lcg := rfl

theorem witness_GenivRunsOrReports : regionFits genivState genivState.dst.toNat genivState.len.toNat := by
  unfold regionFits; decide
/-- V56: the first region that does not fit. -/
theorem witness_GenivRunsOrReports_range : ∃ s : State, ¬ regionFits s s.dst.toNat s.len.toNat :=
  ⟨{ s0 with dst := 1022, len := 3 }, by unfold regionFits; decide⟩

/-- Two states that differ in DST and in what the memory holds, for either value of R. -/
theorem witness_GenivIsDeterministic : ∃ s' : State, ∀ r : Bool,
    s'.params.prng = genivState.params.prng ∧ s'.len = genivState.len ∧
    s'.ctrl.getLsbD 1 = genivState.ctrl.getLsbD 1 ∧
    (if r then s'.seed = genivState.seed else s'.prngs = genivState.prngs ∧ s'.prngRest = genivState.prngRest) ∧
    exec (.geniv r) genivState = .next (after (exec (.geniv r) genivState)) ∧
    exec (.geniv r) s' = .next (after (exec (.geniv r) s')) ∧
    (after (exec (.geniv r) genivState)).status.getLsbD 2 = false ∧ (after (exec (.geniv r) s')).status.getLsbD 2 = false :=
  ⟨put 3 [7] { genivState with dst := 8 }, fun r => ⟨rfl, rfl, rfl, by cases r <;> decide, exec_after _ _, exec_after _ _,
    by cases r <;> decide, by cases r <;> decide⟩⟩

/-- V52: two words and two more, against four at once. -/
theorem witness_GenivContinuesTheStream : ∃ (s t w : State) (dst' len' total : Word),
    s.params.legal ∧ dst'.toNat = s.dst.toNat + s.len.toNat ∧ total.toNat = s.len.toNat + len'.toNat ∧
    regionFits s s.dst.toNat total.toNat ∧ exec (.geniv true) s = .next t ∧
    exec (.geniv true) { s with len := total } = .next w :=
  ⟨{ s0 with len := 2 }, _, _, 2, 2, 4, params_legal, rfl, rfl, by unfold regionFits; decide, exec_after _ _,
    exec_after _ _⟩

/-- For the statements whose hypothesis is a completed command: with an error ... -/
theorem witness_ErrorsChangeOnlyStatus :
    exec .split s0 = .next (after (exec .split s0)) ∧ (after (exec .split s0)).status.getLsbD 2 = true :=
  ⟨exec_after _ _, by decide⟩
/-- ... and any, of any command. -/
theorem witness_NoCommandWritesHostRegisters (i : Instr) : ∃ t, exec i cbcState = .next t := ⟨_, exec_after _ _⟩
theorem witness_ResultRegistersHaveTheirWriters :
    (∃ t, exec .seed cbcState = .next t) ∧ (Instr.seed ∉ [Instr.add, .sub, .mul, .shl, .shr, .xor]) ∧
    (Instr.seed ∉ [Instr.encb, .decb]) ∧
    (Instr.seed ∉ [Instr.pad, .split, .xorv, .cbce, .cbcd, .geniv false, .geniv true]) ∧
    (Instr.seed ∉ [Instr.split, .cbce, .cbcd]) ∧ (Instr.add ∉ [Instr.seed, .geniv false, .geniv true]) :=
  ⟨⟨_, exec_after _ _⟩, by decide⟩

/-- A block with a command accepted and pending. -/
def busy (w : Word) : State := acceptCommand w s0

theorem witness_StepRunsTheDecodedCommand :
    (busy 0x141).status.getLsbD 0 = true ∧ decode (busy 0x141).cmd = .ok (.geniv true) ∧ (busy 0x141).events = [] ∧
      (ev .engine (busy 0x141)).events = .engine :: [] := by decide
theorem witness_IllegalWordsCompleteWithCodeFour :
    (busy 0x101).status.getLsbD 0 = true ∧ legalWord (busy 0x101).cmd = false ∧ (busy 0x101).events = [] ∧
      (ev .engine (busy 0x101)).events = .engine :: [] := by decide
theorem witness_IdleEngineChangesNothing :
    s0.status.getLsbD 0 = false ∧ s0.events = [] ∧ (ev .engine s0).events = .engine :: [] := by decide
theorem witness_CmdWriteIsAccepted (v : Word) :
    s0.status.getLsbD 0 = false ∧
      (ev (.write (s0.params.base + 0x000) 4 v) s0).events = .write (s0.params.base + 0x000) 4 v :: [] := ⟨rfl, rfl⟩
theorem witness_AcceptedCommandRuns (i : Instr) : ∃ s : State, s.status.getLsbD 0 = false ∧
    s.events = .write (s.params.base + 0x000) 4 (encode i) :: .engine :: [] :=
  ⟨{ s0 with events := [.write (params.base + 0x000) 4 (encode i), .engine] }, show s0.status.getLsbD 0 = false by decide, rfl⟩

/-- The first and the last offset of the aperture. -/
theorem witness_WriteWhileBusyIsDropped : ∀ o ∈ [0x0000, 0x1FFC],
    (busy 1).status.getLsbD 0 = true ∧ o % 4 = 0 ∧ o < 0x1000 + 4 * (busy 1).params.memWords ∧
      (ev (.write ((busy 1).params.base + o) 4 5) (busy 1)).events = .write ((busy 1).params.base + o) 4 5 :: [] := by
  decide
/-- STATUS itself, its neighbours, and the last offset. -/
theorem witness_ReadWhileBusy : ∀ o ∈ [0x0004, 0x0000, 0x0008, 0x1FFC],
    (busy 1).status.getLsbD 0 = true ∧ o % 4 = 0 ∧ o < 0x1000 + 4 * (busy 1).params.memWords ∧
      (ev (.read ((busy 1).params.base + o) 4) (busy 1)).events = .read ((busy 1).params.base + o) 4 :: [] := by
  decide

/-- The first and the last register. -/
theorem witness_IdleReadOfRegister :
    s0.status.getLsbD 0 = false ∧ (0x000, 0#32) ∈ shownRegisters s0 ∧
      (0x05C, 9#32) ∈ shownRegisters { s0 with prngs := 9 } ∧
      (ev (.read (s0.params.base + 0x05C) 4) s0).events = .read (s0.params.base + 0x05C) 4 :: [] := by decide
theorem witness_IdleWriteOfRegister :
    s0.status.getLsbD 0 = false ∧ (0x004, s0) ∈ writtenRegisters s0 5 ∧
      (0x058, { s0 with seed := 5 }) ∈ writtenRegisters s0 5 ∧ s0.params.prng = .lcg ∧
      (ev (.write (s0.params.base + 0x05C) 4 5) s0).events = .write (s0.params.base + 0x05C) 4 5 :: [] := by decide
/-- The first and the last unmapped offset. -/
theorem witness_UnmappedOffsets : ∀ o ∈ [0x060, 0xFFC], s0.status.getLsbD 0 = false ∧ o % 4 = 0 ∧ 0x060 ≤ o ∧ o < 0x1000 ∧
    (busy 1).status.getLsbD 0 = true ∧
    (ev (.write (s0.params.base + o) 4 5) (busy 1)).events = .write (s0.params.base + o) 4 5 :: [] ∧
    (ev (.read (s0.params.base + o) 4) s0).events = .read (s0.params.base + o) 4 :: [] ∧
    (ev (.write (s0.params.base + o) 4 5) s0).events = .write (s0.params.base + o) 4 5 :: [] := by decide
/-- The first and the last buffer word, written and not written. -/
theorem witness_IdleAccessOfBufferWord : ∀ a ∈ [0, 1023], s0.status.getLsbD 0 = false ∧ a < s0.params.memWords ∧
    (put a [5] s0).mem.readWord a = some 5 ∧ s0.mem.readWord a = none ∧
    (ev (.write (s0.params.base + (0x1000 + 4 * a)) 4 5) s0).events =
      .write (s0.params.base + (0x1000 + 4 * a)) 4 5 :: [] ∧
    (ev (.read (s0.params.base + (0x1000 + 4 * a)) 4) s0).events =
      .read (s0.params.base + (0x1000 + 4 * a)) 4 :: [] := by decide
/-- Just below the aperture, just above it; half a word at its first byte, a misaligned word at its last. -/
theorem witness_AccessesOutsideTheInterfaceAreRefused :
    0x3FFFFFFC < s0.params.base ∧ s0.params.base + 0x1000 + 4 * s0.params.memWords ≤ 0x40002000 ∧
    (s0.params.base ≤ 0x40000000 ∧ 0x40000000 < s0.params.base + 0x1000 + 4 * s0.params.memWords ∧ 2 ≠ 4) ∧
    (s0.params.base ≤ 0x40001FFF ∧ 0x40001FFF < s0.params.base + 0x1000 + 4 * s0.params.memWords ∧
      (0x40001FFF - s0.params.base) % 4 ≠ 0) ∧
    (ev (.read 0x40001FFF 4) s0).events = .read 0x40001FFF 4 :: [] := by decide
theorem witness_ResetClearsTheBlock : (ev .reset (busy 1)).events = .reset :: [] ∧ (ev .reset (busy 1)).cmd = 1 := by
  decide
theorem witness_OperandsAreFixedWhileBusy : ∃ t,
    (ev (.write 0x40000034 4 5) (busy 1)).status.getLsbD 0 = true ∧
    (ev (.write 0x40000034 4 5) (busy 1)).events = .write 0x40000034 4 5 :: [] ∧
    step (ev (.write 0x40000034 4 5) (busy 1)) = .next t := ⟨_, rfl, rfl, rfl⟩
theorem witness_ReadsHaveNoSideEffect : ∃ t,
    (ev (.read 0x40000034 4) s0).events = .read 0x40000034 4 :: [] ∧ step (ev (.read 0x40000034 4) s0) = .next t :=
  ⟨_, rfl, rfl⟩

/-- The invariants hold, and a step is taken, in a state with a memory, an error and results (so not only at reset). -/
theorem witness_invariants : ∃ t, MemoryInv cbcState ∧ StatusInv { cbcState with status := 0x4E } ∧
    RegisterInv { cbcState with ctrl := 3, outlen := 1024, nblk := 512 } ∧ step cbcState = .next t :=
  ⟨_, ⟨by decide, by decide, by decide⟩, (show statusLegal 0x4E by decide), ⟨by decide, by decide, by decide⟩, rfl⟩

theorem witness_LegalRunsNeverStop :
    ∀ e ∈ ({ s0 with events := [.write 0x40000000 4 0x31, .read 0x40000004 4, .engine, .read 0x40001FFC 4, .reset] } :
      State).events, eventLegal s0.params e := by
  intro e he
  simp only [List.mem_cons, List.not_mem_nil, or_false] at he
  rcases he with rfl | rfl | rfl | rfl | rfl <;> unfold eventLegal <;> decide

end Sys2Proof.Tests
end

namespace Sys2Proof.Machine

/-! ## Word accesses of the host at an aligned offset of the aperture -/

/-- R60, R61: a read event at an aligned offset of the aperture is the host read of that offset's target. -/
theorem step_of_read_offset {s : State} {es : List BusEvent} {o : Nat} (h4 : o % 4 = 0)
    (ho : o < 0x1000 + 4 * s.params.memWords) (h : s.events = .read (s.params.base + o) 4 :: es) :
    step s = .next (hostRead (targetAt o) (s.setEvents es)) := by
  simp [step_of_read h, busRead, busTarget_of_offset h4 ho]

/-- R60, R61: a write event at an aligned offset of the aperture is the host write of that offset's target. -/
theorem step_of_write_offset {s : State} {es : List BusEvent} {o : Nat} {v : Word} (h4 : o % 4 = 0)
    (ho : o < 0x1000 + 4 * s.params.memWords) (h : s.events = .write (s.params.base + o) 4 v :: es) :
    step s = .next (hostWrite (targetAt o) v (s.setEvents es)) := by
  simp [step_of_write h, busWrite, busTarget_of_offset h4 ho]

/-- R39: the offsets 0x060 to 0xFFF hold no register. -/
theorem targetAt_unmapped {o : Nat} (h1 : 0x060 ≤ o) (h2 : o < 0x1000) : targetAt o = .unmapped := by
  simp [targetAt, h2, regAt_of_ge h1]

theorem hostRead_of_idle {s : State} (h : statusBusy s.status = false) (t : Target) :
    hostRead t s = (readIdle t s).2.setRdata (readIdle t s).1 := by simp [hostRead, h]

/-! ## The effective block size (R29), by the parity of BSIZE -/

theorem effBS_of_zero {s : State} (h : s.bsize.toNat = 0) : effBS s = .error .invalidBlockSize := by
  simp [effBS, h]

theorem effBS_of_odd {s : State} (h : s.bsize.toNat % 2 = 1) :
    effBS s = if ctrlOddbsCompat s.ctrl = true ∧ s.bsize.toNat + 1 ≤ s.params.bsMax
      then .ok (s.bsize.toNat + 1) else .error .invalidBlockSize := by
  have hne : s.bsize.toNat ≠ 0 := by omega
  unfold effBS
  dsimp only
  rw [if_neg hne, if_pos h]
  cases ctrlOddbsCompat s.ctrl
  · simp
  · simp only [↓reduceIte, true_and, gt_iff_lt, ← Nat.not_le, ite_not]

theorem effBS_of_even {s : State} (hne : s.bsize.toNat ≠ 0) (h : s.bsize.toNat % 2 = 0) :
    effBS s = if s.bsize.toNat ≤ s.params.bsMax then .ok s.bsize.toNat else .error .invalidBlockSize := by
  unfold effBS
  dsimp only
  rw [if_neg hne, if_neg (by omega)]
  simp only [gt_iff_lt, ← Nat.not_le, ite_not]

/-! ## The registers and offsets of spec/10_state.md -/

/-- Settles O42: an aligned offset from 0x060 to 0xFFF reaches no register (R39), so an idle access of it shows 0 or is
ignored; a write while busy is dropped whatever its target. -/
theorem unmappedOffsets : Obligations.UnmappedOffsets := by
  intro s es o h4 hlo hhi
  have ho : o < 0x1000 + 4 * s.params.memWords := by omega
  have ht := targetAt_unmapped hlo hhi
  refine ⟨fun hidle hev => ?_, fun v hidle hev => ?_, fun v hbusy hev => ?_⟩
  · rw [step_of_read_offset h4 ho hev, ht, hostRead_of_idle (s := s.setEvents es) hidle]; rfl
  · rw [step_of_write_offset h4 ho hev, ht, hostWrite_of_idle (s := s.setEvents es) hidle]; rfl
  · rw [step_of_write_offset h4 ho hev, hostWrite_of_busy (s := s.setEvents es) hbusy]; rfl

/-- Settles O15: BSIZE = 0, an odd BSIZE and an even one are the three cases of R29. -/
theorem effectiveBlockSize : Obligations.EffectiveBlockSize := by
  intro s
  refine ⟨effBS_of_zero, fun hodd hc => ?_, fun hodd hc hmax => ?_, fun hodd hc hmax => ?_, fun heven hmax => ?_,
    fun hne heven hmax => ?_⟩
  · rw [effBS_of_odd hodd, if_neg fun ⟨hon, _⟩ => Bool.false_ne_true (hc.symm.trans hon)]
  · rw [effBS_of_odd hodd, if_neg (by omega)]
  · rw [effBS_of_odd hodd, if_pos ⟨hc, hmax⟩]
  · rw [effBS_of_even (by omega) heven, if_neg (by omega)]
  · rw [effBS_of_even hne heven, if_pos hmax]

/-- Settles O36: offset 0x000 is CMD, and an idle host write of CMD accepts the command (R23, R25). -/
theorem cmdWriteIsAccepted : Obligations.CmdWriteIsAccepted := by
  intro s es v hidle hev
  have ht : targetAt 0x000 = .register .cmd := rfl
  rw [step_of_write_offset rfl (by omega) hev, ht, hostWrite_of_idle (s := s.setEvents es) hidle]
  rfl

end Sys2Proof.Machine

namespace Sys2Proof.Machine

/-! ## The command word and its command (spec/30_encoding.md) -/

/-- R80, R82: a word whose three fields are those of a command is that command's word. -/
theorem eq_encode_of_fields {w : Word} {i : Instr} (hrsv : reservedField w = 0) (hopc : opcodeField w = opcodeOf i)
    (hr : reseedField w = (reseedBitOf i).toNat) : w = encode i := by
  apply BitVec.eq_of_toNat_eq
  rw [encode, ← hopc, ← hr, BitVec.toNat_ofNat]
  unfold opcodeField reseedField reservedField at *
  omega

/-- R82: what a row of the table other than GENIV's says. -/
theorem plainCommand_eq_some {opc : Nat} {i : Instr} (h : plainCommand opc = some i) :
    opc ∈ listedOpcodes ∧ opc = opcodeOf i ∧ reseedBitOf i = false := by
  unfold plainCommand at h
  split at h <;> cases h <;> decide

theorem exists_plainCommand_of_listed :
    ∀ opc ∈ listedOpcodes, opc ≠ genivOpcode → ∃ i, plainCommand opc = some i := by
  simp only [← Option.isSome_iff_exists]
  decide

/-- R83: everything a successful decode can be, GENIV with either R or another command with R clear. -/
theorem decode_eq_ok_cases {w : Word} {i : Instr} (h : decode w = .ok i) :
    reservedField w = 0 ∧
      (opcodeField w = genivOpcode ∧ i = .geniv (reseedField w == 1) ∨
        plainCommand (opcodeField w) = some i ∧ reseedField w = 0) := by
  unfold decode at h
  split_ifs at h with hrsv hgeniv hr
  · cases h
    exact ⟨not_not.mp hrsv, .inl ⟨hgeniv, rfl⟩⟩
  · split at h <;> cases h
  · cases hplain : plainCommand (opcodeField w) with
    | none => simp [hplain] at h
    | some j =>
      obtain rfl : j = i := by simpa [hplain] using h
      exact ⟨not_not.mp hrsv, .inr ⟨rfl, not_not.mp hr⟩⟩

theorem decode_of_geniv {w : Word} (hrsv : reservedField w = 0) (hopc : opcodeField w = genivOpcode) :
    decode w = .ok (.geniv (reseedField w == 1)) := by
  simp [decode, hrsv, hopc]

theorem decode_of_plainCommand {w : Word} {i : Instr} (hrsv : reservedField w = 0) (hne : opcodeField w ≠ genivOpcode)
    (hplain : plainCommand (opcodeField w) = some i) (hr : reseedField w = 0) : decode w = .ok i := by
  simp [decode, hrsv, hne, hplain, hr]

theorem decode_encode (i : Instr) : decode (encode i) = .ok i := by
  cases i with
  | geniv reseed => cases reseed <;> decide
  | _ => decide

theorem eq_encode_of_decode {w : Word} {i : Instr} (h : decode w = .ok i) : w = encode i := by
  obtain ⟨hrsv, ⟨hopc, rfl⟩ | ⟨hplain, hr⟩⟩ := decode_eq_ok_cases h
  · refine eq_encode_of_fields hrsv hopc ?_
    have hbit : reseedField w = 0 ∨ reseedField w = 1 := Nat.mod_two_eq_zero_or_one _
    obtain hr | hr := hbit <;> simp [hr, reseedBitOf]
  · obtain ⟨-, hopc, hbit⟩ := plainCommand_eq_some hplain
    exact eq_encode_of_fields hrsv hopc (by rw [hr, hbit]; rfl)

theorem decode_eq_ok_iff {w : Word} {i : Instr} : decode w = .ok i ↔ w = encode i :=
  ⟨eq_encode_of_decode, fun h => h ▸ decode_encode i⟩

/-- R82: the three checks of `legalWord`, written on the word's number. -/
theorem legalWord_iff {w : Word} :
    legalWord w = true ↔
      opcodeField w ∈ listedOpcodes ∧ reservedField w = 0 ∧ (reseedField w = 0 ∨ opcodeField w = genivOpcode) := by
  simp [legalWord, opcodeListed, reservedClear, reseedAllowed, and_assoc]

/-- R82, R83: the decoder accepts exactly the legal words. -/
theorem exists_decode_iff_legalWord {w : Word} : (∃ i, decode w = .ok i) ↔ legalWord w = true := by
  constructor
  · rintro ⟨i, hi⟩
    rw [legalWord_iff]
    obtain ⟨hrsv, ⟨hopc, -⟩ | ⟨hplain, hr⟩⟩ := decode_eq_ok_cases hi
    · exact ⟨by rw [hopc]; decide, hrsv, .inr hopc⟩
    · exact ⟨(plainCommand_eq_some hplain).1, hrsv, .inl hr⟩
  · intro hlegal
    obtain ⟨hlisted, hrsv, hr⟩ := legalWord_iff.mp hlegal
    by_cases hgeniv : opcodeField w = genivOpcode
    · exact ⟨_, decode_of_geniv hrsv hgeniv⟩
    · obtain ⟨i, hplain⟩ := exists_plainCommand_of_listed _ hlisted hgeniv
      exact ⟨i, decode_of_plainCommand hrsv hgeniv hplain (hr.resolve_right hgeniv)⟩

/-- The table of R82 pairs each command with its word and holds nothing else. -/
theorem mem_opcodeMap_iff {w : Word} {i : Instr} : (w, i) ∈ opcodeMap ↔ w = encode i := by
  cases i with
  | geniv reseed => cases reseed <;> simp [opcodeMap, encode, opcodeOf, reseedBitOf]
  | _ => simp [opcodeMap, encode, opcodeOf, reseedBitOf]

/-- Settles O3: the words that decode are the legal ones, and a word decodes to a command exactly when it is that
command's encoding, which is how the table of R82 pairs them. -/
theorem legalWordsAreTheSixteen : Obligations.LegalWordsAreTheSixteen := fun _ =>
  ⟨exists_decode_iff_legalWord.trans legalWord_iff, fun _ => decode_eq_ok_iff.trans mem_opcodeMap_iff.symm⟩

end Sys2Proof.Machine

namespace Sys2Proof.Machine

/-! ## The Word32 primitives as numbers (spec/40_arith.md, R100 to R105) -/

theorem add32_toNat (a b : Word) : (add32 a b).toNat = (a.toNat + b.toNat) % 2 ^ 32 := BitVec.toNat_add a b

theorem sub32_toNat (a b : Word) : ((sub32 a b).toNat : Int) = ((a.toNat : Int) - (b.toNat : Int)) % 2 ^ 32 := by
  have hb := b.isLt
  have h : (sub32 a b).toNat = (2 ^ 32 - b.toNat + a.toNat) % 2 ^ 32 := BitVec.toNat_sub a b
  omega

theorem mul32_toNat (a b : Word) : (mul32 a b).toNat = a.toNat * b.toNat % 2 ^ 32 := BitVec.toNat_mul a b

/-- R103: an amount of 32 or more shifts every bit out, so the case split of `shl32` changes nothing. -/
theorem shl32_eq_shiftLeft (a n : Word) : shl32 a n = a <<< n.toNat := by
  unfold shl32
  split
  · rfl
  · next h => exact (BitVec.shiftLeft_eq_zero (Nat.not_lt.mp h)).symm

/-- R104: likewise for `shr32`. -/
theorem shr32_eq_ushiftRight (a n : Word) : shr32 a n = a >>> n.toNat := by
  unfold shr32
  split
  · rfl
  · next h => exact (BitVec.ushiftRight_eq_zero (Nat.not_lt.mp h)).symm

theorem shl32_toNat (a n : Word) : (shl32 a n).toNat = a.toNat * 2 ^ n.toNat % 2 ^ 32 := by
  rw [shl32_eq_shiftLeft, BitVec.toNat_shiftLeft, Nat.shiftLeft_eq]

theorem shr32_toNat (a n : Word) : (shr32 a n).toNat = a.toNat / 2 ^ n.toNat := by
  rw [shr32_eq_ushiftRight, BitVec.toNat_ushiftRight, Nat.shiftRight_eq_div_pow]

theorem xor32_getLsbD (a b : Word) (i : Nat) : (xor32 a b).getLsbD i = true ↔ a.getLsbD i ≠ b.getLsbD i := by
  rw [xor32, BitVec.getLsbD_xor, Bool.xor_iff_ne]

/-- Settles O4: each primitive by its own lemma above. -/
theorem primitivesAreExactArithmetic : Obligations.PrimitivesAreExactArithmetic := fun a b =>
  ⟨add32_toNat a b, sub32_toNat a b, mul32_toNat a b, shl32_toNat a b, shr32_toNat a b,
    fun i _ => xor32_getLsbD a b i⟩

/-! ## The primitives as words of exact numbers -/

theorem add32_eq_ofNat (a b : Word) : add32 a b = BitVec.ofNat 32 (a.toNat + b.toNat) :=
  BitVec.eq_of_toNat_eq (by rw [add32_toNat, BitVec.toNat_ofNat])

theorem sub32_eq_ofInt (a b : Word) : sub32 a b = BitVec.ofInt 32 ((a.toNat : Int) - (b.toNat : Int)) :=
  BitVec.eq_of_toNat_eq (by have h := sub32_toNat a b; rw [BitVec.toNat_ofInt]; omega)

theorem mul32_eq_ofNat (a b : Word) : mul32 a b = BitVec.ofNat 32 (a.toNat * b.toNat) :=
  BitVec.eq_of_toNat_eq (by rw [mul32_toNat, BitVec.toNat_ofNat])

theorem shl32_eq_ofNat (a n : Word) : shl32 a n = BitVec.ofNat 32 (a.toNat * 2 ^ n.toNat) :=
  BitVec.eq_of_toNat_eq (by rw [shl32_toNat, BitVec.toNat_ofNat])

theorem shr32_eq_ofNat (a n : Word) : shr32 a n = BitVec.ofNat 32 (a.toNat / 2 ^ n.toNat) := by
  rw [← shr32_toNat, BitVec.ofNat_toNat, BitVec.setWidth_eq]

/-! ## The six arithmetic commands (R106 to R111) -/

/-- R115: an arithmetic command completes in every state and changes RES, which gets the primitive's value w, and STATUS
only. -/
theorem arithCommand_next {op : Word → Word → Word} {s : State} {w : Word} (h : op s.opa s.opb = w) :
    arithCommand op s = .next { s with res := w, status := statusAfter 0 s } := by
  subst h
  have hrun : arithCommand op s = .next (complete 0 (s.setRes (op s.opa s.opb))) := by
    unfold arithCommand
    exact runCommand_of_ok (a := (s.opa, s.opb)) rfl
  rw [hrun, complete_eq_statusAfter]
  rfl

/-- Settles O6: the three commands are the arithmetic template with add32, sub32 and mul32. -/
theorem addSubMulComplete : Obligations.AddSubMulComplete :=
  ⟨⟨decode_encode .add, decode_encode .sub, decode_encode .mul⟩, fun _ =>
    ⟨arithCommand_next (add32_eq_ofNat _ _), arithCommand_next (sub32_eq_ofInt _ _),
      arithCommand_next (mul32_eq_ofNat _ _)⟩⟩

/-- Settles O7: the two commands are the arithmetic template with shl32 and shr32, whose amount is the whole word. -/
theorem shiftsComplete : Obligations.ShiftsComplete :=
  ⟨⟨decode_encode .shl, decode_encode .shr⟩, fun _ =>
    ⟨arithCommand_next (shl32_eq_ofNat _ _), arithCommand_next (shr32_eq_ofNat _ _)⟩⟩

/-- Settles O8: the command is the arithmetic template with xor32. -/
theorem xorCompletes : Obligations.XorCompletes :=
  ⟨decode_encode .xor, fun _ => arithCommand_next rfl⟩

end Sys2Proof.Machine

namespace Sys2Proof.Machine

/-! ## The rounds of the engine (spec/41_round_engine.md, R121 to R123) -/

theorem mixF_eq (v s ka kb : Word) :
    mixF v s ka kb = ((v <<< 4) + ka) ^^^ (v + s) ^^^ ((v >>> 5) + kb) := by
  rw [mixF, shl32_eq_shiftLeft, shr32_eq_ushiftRight]
  rfl

@[simp] theorem encryptRound_sum (k : Key) (r : RoundState) : (encryptRound k r).sum = r.sum + delta := rfl

@[simp] theorem decryptRound_sum (k : Key) (r : RoundState) : (decryptRound k r).sum = r.sum - delta := rfl

/-- The second half-round of decryption undoes the first half-round of encryption, and the first the second, since each
reads the words that its counterpart read. -/
@[simp] theorem decryptRound_encryptRound (k : Key) (r : RoundState) : decryptRound k (encryptRound k r) = r := by
  simp [decryptRound, encryptRound, add32, sub32]

@[simp] theorem encryptRound_decryptRound (k : Key) (r : RoundState) : encryptRound k (decryptRound k r) = r := by
  simp [decryptRound, encryptRound, add32, sub32]

/-! ## The schedule of ENCB (R122, R124) -/

/-- R122: the accumulator is n deltas after n rounds, and the two words are those of the document's schedule. -/
theorem forRange_encryptRound_eq_tea (k : Key) (v0 v1 : Word) (n : Nat) :
    forRange n (fun _ => encryptRound k) ⟨0#32, v0, v1⟩ =
      ⟨BitVec.ofNat 32 (n * 0x9E3779B9), (teaEncryptRounds k.k0 k.k1 k.k2 k.k3 n (v0, v1)).1,
        (teaEncryptRounds k.k0 k.k1 k.k2 k.k3 n (v0, v1)).2⟩ := by
  induction n with
  | zero => rfl
  | succ n ih =>
    have hsum : BitVec.ofNat 32 (n * 0x9E3779B9) + delta = BitVec.ofNat 32 ((n + 1) * 0x9E3779B9) := by
      rw [Nat.succ_mul, BitVec.ofNat_add]; rfl
    rw [forRange_succ, ih]
    simp only [encryptRound, teaEncryptRounds, mixF_eq, add32, hsum]

theorem encryptBlock_eq_tea (b : Block) (k : Key) :
    encryptBlock b k = ⟨(teaEncryptRounds k.k0 k.k1 k.k2 k.k3 32 (b.v0, b.v1)).1,
      (teaEncryptRounds k.k0 k.k1 k.k2 k.k3 32 (b.v0, b.v1)).2⟩ := by
  rw [encryptBlock, forRange_encryptRound_eq_tea]

/-- R124, R125: a block command completes in every state and changes V0 and V1, which get the block c that the cipher
gives, and STATUS only. -/
theorem blockCommand_next {cipher : Block → Key → Block} {s : State} {c : Block}
    (h : cipher (blockOperand s) (keyOperand s) = c) :
    blockCommand cipher s = .next { s with v0 := c.v0, v1 := c.v1, status := statusAfter 0 s } := by
  subst h
  have hrun : blockCommand cipher s = .next (complete 0 (s.setBlock (cipher (blockOperand s) (keyOperand s)).v0
      (cipher (blockOperand s) (keyOperand s)).v1)) := by
    unfold blockCommand
    exact runCommand_of_ok (a := (blockOperand s, keyOperand s)) rfl
  rw [hrun, complete_eq_statusAfter]
  rfl

/-- Settles O9: the command is the block template with EncryptBlock, which is the document's schedule. -/
theorem encbCompletes : Obligations.EncbCompletes :=
  ⟨encryptBlock_eq_tea, decode_encode .encb, fun s =>
    blockCommand_next (encryptBlock_eq_tea (blockOperand s) (keyOperand s))⟩

/-! ## Encryption and decryption are inverse (R126) -/

/-- A loop whose body ignores its counter is the body iterated. -/
theorem forRange_const {σ : Type} (n : Nat) (f : σ → σ) (s : σ) : forRange n (fun _ => f) s = f^[n] s := by
  induction n with
  | zero => rfl
  | succ n ih => rw [forRange_succ, ih, Function.iterate_succ_apply']

/-- R120: DSUM0 is 32 deltas, where an encryption's accumulator ends. -/
theorem iterate_encryptRound_sum (k : Key) (v0 v1 : Word) : ((encryptRound k)^[32] ⟨0#32, v0, v1⟩).sum = dsum0 := by
  have hsum : Function.Semiconj RoundState.sum (encryptRound k) (· + delta) := encryptRound_sum k
  have hend : (· + delta)^[32] 0#32 = dsum0 := by decide
  exact ((hsum.iterate_right 32).eq _).trans hend

/-- A decryption's accumulator ends where an encryption's starts. -/
theorem iterate_decryptRound_sum (k : Key) (v0 v1 : Word) : ((decryptRound k)^[32] ⟨dsum0, v0, v1⟩).sum = 0#32 := by
  have hsum : Function.Semiconj RoundState.sum (decryptRound k) (· - delta) := decryptRound_sum k
  have hend : (· - delta)^[32] dsum0 = 0#32 := by decide
  exact ((hsum.iterate_right 32).eq _).trans hend

theorem decryptBlock_encryptBlock (b : Block) (k : Key) : decryptBlock (encryptBlock b k) k = b := by
  have hinv : Function.LeftInverse (decryptRound k) (encryptRound k) := decryptRound_encryptRound k
  simp only [encryptBlock, decryptBlock, forRange_const]
  rw [← iterate_encryptRound_sum k b.v0 b.v1, hinv.iterate 32]

theorem encryptBlock_decryptBlock (b : Block) (k : Key) : encryptBlock (decryptBlock b k) k = b := by
  have hinv : Function.LeftInverse (encryptRound k) (decryptRound k) := encryptRound_decryptRound k
  simp only [encryptBlock, decryptBlock, forRange_const]
  rw [← iterate_decryptRound_sum k b.v0 b.v1, hinv.iterate 32]

/-- Settles O11: every round undoes its counterpart, and each cipher starts from the accumulator the other ends with. -/
theorem cipherIsBijective : Obligations.CipherIsBijective := fun b k =>
  ⟨decryptBlock_encryptBlock b k, encryptBlock_decryptBlock b k⟩

end Sys2Proof.Machine

namespace Sys2Proof.Machine

/-! ## The padding function (spec/42_framer.md, R140) -/

theorem roundup_mono (m : Nat) {n k : Nat} (h : n ≤ k) : roundup n m ≤ roundup k m :=
  Nat.mul_le_mul_right m (Nat.div_le_div_right (by omega))

/-- Settles O13: the padded length is below n + m, and least since rounding up is monotone and keeps a multiple. -/
theorem roundupIsLeastMultiple : Obligations.RoundupIsLeastMultiple := by
  intro n m hm
  have hlt := roundup_lt n hm
  exact ⟨roundup_mod n m, le_roundup n hm, fun k hk hnk => (roundup_mono m hnk).trans_eq (roundup_of_mod hm hk),
    by omega, roundup_of_mod hm, roundup_zero_left hm⟩

/-! ## Appending pad words (R141, R142) -/

/-- The operands of a framing command with multiple m: the sequence at (SRC, LEN) and its padded length. -/
def framePlan (s : State) (m : Nat) : FramePlan :=
  { base := s.src.toNat, n := s.len.toNat, p := roundup s.len.toNat m }

theorem appendPad_eq_setMem (f : FramePlan) (pv : Word) (s : State) :
    appendPad f pv s = s.setMem (appendPad f pv s).mem := by
  have hframe := (appendPad_touches f pv s).frame
  rw [appendPad_draws] at hframe
  exact hframe

/-- A sequence that already has its padded length gets no word. -/
theorem appendPad_of_aligned {f : FramePlan} (h : f.p = f.n) (pv : Word) (s : State) : appendPad f pv s = s := by
  rw [appendPad, h, Nat.sub_self, forRange_zero]

theorem appendPad_sameOutside (f : FramePlan) (pv : Word) (s : State) :
    sameOutside (f.base + f.n) (f.p - f.n) s (appendPad f pv s) :=
  (appendPad_touches f pv s).sameOutside fun _ => id

theorem appendPad_readWord_pad (f : FramePlan) (pv : Word) (s : State) {a : Nat} (h1 : f.base + f.n ≤ a)
    (h2 : a < f.base + f.p) : (appendPad f pv s).mem.readWord a = some pv :=
  appendPad_readWord f pv s h1 (by omega)

theorem appendPad_readWord_source (f : FramePlan) (pv : Word) (s : State) {a : Nat} (h : a < f.base + f.n) :
    (appendPad f pv s).mem.readWord a = s.mem.readWord a :=
  (appendPad_touches f pv s).word (by omega)

/-! ## When PAD and SPLIT complete, and with what -/

/-- R200: a command whose check part raises e changes STATUS alone, to the code of e. -/
theorem runCommand_of_error_status {α : Type} {check : State → Except CmdError α} {effect : α → State → State}
    {s : State} {e : CmdError} (h : check s = .error e) :
    runCommand check effect s = .next { s with status := statusAfter e.code s } := by
  rw [runCommand_of_error h, complete_eq_statusAfter]

theorem exec_pad_of_fits {s : State} (hm : s.mult.toNat ≠ 0)
    (hfit : regionFits s s.src.toNat (roundup s.len.toNat s.mult.toNat)) :
    exec .pad s = .next { s with mem := (appendPad (framePlan s s.mult.toNat) s.padv s).mem,
                                 outlen := BitVec.ofNat 32 (roundup s.len.toNat s.mult.toNat),
                                 status := statusAfter 0 s } := by
  have hcheck : padCheck s = .ok (framePlan s s.mult.toNat, s.padv) := by
    simp [padCheck, framePlan, hm, (regionFits_iff_inRange ..).mp hfit]
  change runCommand padCheck padEffect s = _
  rw [runCommand_of_ok hcheck, complete_eq_statusAfter, padEffect, appendPad_eq_setMem]
  rfl

theorem exec_split_of_fits {s : State} {bs : Nat} (hbs : effBS s = .ok bs)
    (hfit : regionFits s s.src.toNat (roundup s.len.toNat bs)) :
    exec .split s = .next { s with mem := (appendPad (framePlan s bs) 0#32 s).mem,
                                   outlen := BitVec.ofNat 32 (roundup s.len.toNat bs),
                                   nblk := BitVec.ofNat 32 (roundup s.len.toNat bs / bs),
                                   status := statusAfter 0 s } := by
  have hcheck : splitCheck s = .ok (framePlan s bs, bs) := by
    simp [splitCheck, framePlan, hbs, (regionFits_iff_inRange ..).mp hfit]
  change runCommand splitCheck splitEffect s = _
  rw [runCommand_of_ok hcheck, complete_eq_statusAfter, splitEffect, appendPad_eq_setMem]
  rfl

theorem padCheck_of_mult_zero {s : State} (hm : s.mult.toNat = 0) : padCheck s = .error .invalidBlockSize := by
  simp [padCheck, hm]

theorem padCheck_of_not_fits {s : State} (hm : s.mult.toNat ≠ 0)
    (hfit : ¬ regionFits s s.src.toNat (roundup s.len.toNat s.mult.toNat)) : padCheck s = .error .addressRange := by
  rw [regionFits_iff_inRange] at hfit
  simp [padCheck, hm, hfit]

theorem splitCheck_of_effBS_error {s : State} {e : CmdError} (hbs : effBS s = .error e) :
    splitCheck s = .error e := by
  simp [splitCheck, hbs]

theorem splitCheck_of_not_fits {s : State} {bs : Nat} (hbs : effBS s = .ok bs)
    (hfit : ¬ regionFits s s.src.toNat (roundup s.len.toNat bs)) : splitCheck s = .error .addressRange := by
  rw [regionFits_iff_inRange] at hfit
  simp [splitCheck, hbs, hfit]

/-- Settles O16: the run by `exec_pad_of_fits` with the rules of `appendPad`, the errors by PAD's check part. -/
theorem padRunsOrReports : Obligations.PadRunsOrReports := by
  refine ⟨decode_encode .pad, fun s => ⟨fun hm hfit => ?_, fun hm => ?_, fun hm hfit => ?_⟩⟩
  · exact ⟨_, exec_pad_of_fits hm hfit, rfl, fun _ => appendPad_readWord_pad (framePlan s _) _ _,
      appendPad_sameOutside (framePlan s _) s.padv s⟩
  · exact runCommand_of_error_status (padCheck_of_mult_zero hm)
  · exact runCommand_of_error_status (padCheck_of_not_fits hm hfit)

/-- Settles O17: the run by `exec_split_of_fits` with the rules of `appendPad`, the errors by SPLIT's check part. -/
theorem splitRunsOrReports : Obligations.SplitRunsOrReports := by
  refine ⟨decode_encode .split, fun s => ⟨fun bs hbs hfit => ?_, fun hbs => ?_, fun bs hbs hfit => ?_⟩⟩
  · exact ⟨_, exec_split_of_fits hbs hfit, rfl, fun _ => appendPad_readWord_pad (framePlan s _) _ _,
      appendPad_sameOutside (framePlan s _) 0#32 s⟩
  · exact runCommand_of_error_status (splitCheck_of_effBS_error hbs)
  · exact runCommand_of_error_status (splitCheck_of_not_fits hbs hfit)

/-! ## Framing is idempotent (R143) -/

theorem pad_fits_of_noErr {s t : State} (h : exec .pad s = .next t) (ht : t.status.getLsbD 2 = false) :
    s.mult.toNat ≠ 0 ∧ regionFits s s.src.toNat (roundup s.len.toNat s.mult.toNat) := by
  obtain ⟨f, hcheck, -⟩ := runCommand_noErr (check := padCheck) (effect := padEffect) h ht
  obtain ⟨hm, hfit, -⟩ := padCheck_ok hcheck
  exact ⟨hm, (regionFits_iff_inRange ..).mpr hfit⟩

theorem split_fits_of_noErr {s t : State} (h : exec .split s = .next t) (ht : t.status.getLsbD 2 = false) :
    ∃ bs, effBS s = .ok bs ∧ regionFits s s.src.toNat (roundup s.len.toNat bs) := by
  obtain ⟨f, hcheck, -⟩ := runCommand_noErr (check := splitCheck) (effect := splitEffect) h ht
  obtain ⟨bs, hbs, hfit, -⟩ := splitCheck_ok hcheck
  exact ⟨bs, hbs, (regionFits_iff_inRange ..).mpr hfit⟩

theorem effBS_pos {s : State} {bs : Nat} (h : effBS s = .ok bs) : 0 < bs :=
  Nat.lt_of_lt_of_le Nat.two_pos (effBS_ok h).2.1

/-- R141: PAD of an aligned sequence in range writes nothing and reports the sequence's own length. -/
theorem exec_pad_of_aligned {s : State} (hm : s.mult.toNat ≠ 0) (hmod : s.len.toNat % s.mult.toNat = 0)
    (hfit : regionFits s s.src.toNat s.len.toNat) :
    exec .pad s = .next { s with outlen := s.len, status := statusAfter 0 s } := by
  have hp : roundup s.len.toNat s.mult.toNat = s.len.toNat := roundup_of_mod (Nat.pos_of_ne_zero hm) hmod
  rw [exec_pad_of_fits hm (hp.symm ▸ hfit), appendPad_of_aligned hp, hp, BitVec.ofNat_toNat, BitVec.setWidth_eq]

/-- R142: SPLIT of an aligned sequence in range writes nothing and reports the sequence's own length. -/
theorem exec_split_of_aligned {s : State} {bs : Nat} (hbs : effBS s = .ok bs) (hmod : s.len.toNat % bs = 0)
    (hfit : regionFits s s.src.toNat s.len.toNat) :
    exec .split s = .next { s with outlen := s.len, nblk := BitVec.ofNat 32 (s.len.toNat / bs),
                                   status := statusAfter 0 s } := by
  have hp : roundup s.len.toNat bs = s.len.toNat := roundup_of_mod (effBS_pos hbs) hmod
  rw [exec_split_of_fits hbs (hp.symm ▸ hfit), appendPad_of_aligned hp, hp, BitVec.ofNat_toNat, BitVec.setWidth_eq]

theorem statusAfter_zero_noErr (s : State) : (statusAfter 0 s).getLsbD 2 = false :=
  (statusAfter_fields (c := 0) (by decide) s).2.2.1

/-- A length up to one that fits the buffer is held exactly by a 32-bit register. -/
theorem toNat_ofNat_of_fits {s : State} {base n k : Nat} (hlegal : s.params.legal) (hfit : regionFits s base n)
    (hk : k ≤ n) : (BitVec.ofNat 32 k).toNat = k := by
  have hmem := legal_memWords_lt hlegal
  have hn : n ≤ s.params.memWords := inRange_le ((regionFits_iff_inRange ..).mp hfit)
  rw [BitVec.toNat_ofNat, Nat.mod_eq_of_lt (by omega)]

/-- Settles O18: a run that did not err is that of `exec_pad_of_fits` or `exec_split_of_fits`, whose OUTLEN holds the
padded length exactly; the second run starts from an aligned length. -/
theorem framingIsIdempotent : Obligations.FramingIsIdempotent := by
  rintro s t i (rfl | rfl) hlegal h ht
  · obtain ⟨hm, hfit⟩ := pad_fits_of_noErr h ht
    have hout := toNat_ofNat_of_fits hlegal hfit le_rfl
    obtain rfl := next_inj ((exec_pad_of_fits hm hfit).symm.trans h)
    simp only [hout]
    refine ⟨fun a _ => appendPad_readWord_source (framePlan s _) _ _, le_roundup _ (Nat.pos_of_ne_zero hm),
      fun a => appendPad_readWord_pad (framePlan s _) _ _, nofun, _, exec_pad_of_aligned hm ?_ ?_, rfl, rfl,
      statusAfter_zero_noErr _⟩
    · exact hout.symm ▸ roundup_mod _ _
    · exact hout.symm ▸ hfit
  · obtain ⟨bs, hbs, hfit⟩ := split_fits_of_noErr h ht
    have hpos := effBS_pos hbs
    have hout := toNat_ofNat_of_fits hlegal hfit le_rfl
    have hnblk := toNat_ofNat_of_fits hlegal hfit (Nat.div_le_self _ bs)
    obtain rfl := next_inj ((exec_split_of_fits hbs hfit).symm.trans h)
    simp only [hout, hnblk]
    refine ⟨fun a _ => appendPad_readWord_source (framePlan s _) _ _, le_roundup _ hpos,
      fun a => appendPad_readWord_pad (framePlan s _) _ _, fun _ bs' hbs' => ?_, _,
      exec_split_of_aligned (bs := bs) hbs ?_ ?_, rfl, rfl, statusAfter_zero_noErr _⟩
    · obtain rfl := Except.ok.inj (hbs.symm.trans hbs')
      exact ⟨roundup_mod _ _, (roundup_div_mul _ hpos).symm⟩
    · exact hout.symm ▸ roundup_mod _ _
    · exact hout.symm ▸ hfit

end Sys2Proof.Machine

namespace Sys2Proof.Machine

/-! ## The check parts of the chain controller (spec/43_cbc.md) -/

/-- The operands of XORV (R160). -/
def xorPlan (s : State) : XorPlan :=
  { src := s.src.toNat, iva := s.ivaddr.toNat, dst := s.dst.toNat, n := s.len.toNat }

/-- The operands of CBCE and CBCD (R161, R162) with block size bs and output length p. -/
def cbcPlan (s : State) (bs p : Nat) : CbcPlan :=
  { bs := bs, n := s.len.toNat, p := p, src := s.src.toNat, dst := s.dst.toNat, iva := s.ivaddr.toNat,
    key := keyOperand s }

/-- The three region checks of a command in one test, as the check parts make it. -/
theorem regionsFit_iff_inRange (s : State) (a k b l c n : Nat) :
    (regionFits s a k ∧ regionFits s b l ∧ regionFits s c n) ↔
      (inRange s a k && inRange s b l && inRange s c n) = true := by
  simp only [regionFits_iff_inRange, Bool.and_eq_true, and_assoc]

theorem xorvCheck_of_length_ne {s : State} (hlen : s.len.toNat ≠ s.ivlen.toNat) :
    xorvCheck s = .error .lengthMismatch :=
  if_pos hlen

theorem xorvCheck_of_length_eq {s : State} (hlen : s.len.toNat = s.ivlen.toNat) :
    xorvCheck s = if inRange s s.src.toNat s.len.toNat && inRange s s.ivaddr.toNat s.len.toNat &&
      inRange s s.dst.toNat s.len.toNat then .ok (xorPlan s) else .error .addressRange :=
  if_neg (not_not.mpr hlen)

theorem cbceCheck_of_effBS_error {s : State} {e : CmdError} (hbs : effBS s = .error e) : cbceCheck s = .error e := by
  simp only [cbceCheck, hbs]

theorem cbceCheck_of_ivlen_ne {s : State} {bs : Nat} (hbs : effBS s = .ok bs) (hiv : s.ivlen.toNat ≠ bs) :
    cbceCheck s = .error .lengthMismatch := by
  simp only [cbceCheck, hbs, if_pos hiv]

theorem cbceCheck_of_ivlen_eq {s : State} {bs : Nat} (hbs : effBS s = .ok bs) (hiv : s.ivlen.toNat = bs) :
    cbceCheck s = if inRange s s.src.toNat s.len.toNat && inRange s s.dst.toNat (roundup s.len.toNat bs) &&
      inRange s s.ivaddr.toNat bs then .ok (cbcPlan s bs (roundup s.len.toNat bs)) else .error .addressRange := by
  simp only [cbceCheck, hbs, if_neg (not_not.mpr hiv), cbcPlan]

theorem cbcdCheck_of_effBS_error {s : State} {e : CmdError} (hbs : effBS s = .error e) : cbcdCheck s = .error e := by
  simp only [cbcdCheck, hbs]

/-- R162: the IV's length and a short final block raise the same error. -/
theorem cbcdCheck_of_length_ne {s : State} {bs : Nat} (hbs : effBS s = .ok bs)
    (hlen : s.ivlen.toNat ≠ bs ∨ s.len.toNat % bs ≠ 0) : cbcdCheck s = .error .lengthMismatch := by
  simp only [cbcdCheck, hbs]
  by_cases hiv : s.ivlen.toNat ≠ bs
  · rw [if_pos hiv]
  · rw [if_neg hiv, if_pos (hlen.resolve_left hiv)]

theorem cbcdCheck_of_length_eq {s : State} {bs : Nat} (hbs : effBS s = .ok bs) (hiv : s.ivlen.toNat = bs)
    (hmod : s.len.toNat % bs = 0) :
    cbcdCheck s = if inRange s s.src.toNat s.len.toNat && inRange s s.dst.toNat s.len.toNat &&
      inRange s s.ivaddr.toNat bs then .ok (cbcPlan s bs s.len.toNat) else .error .addressRange := by
  simp only [cbcdCheck, hbs, if_neg (not_not.mpr hiv), if_neg (not_not.mpr hmod), cbcPlan]

/-! ## When the three commands complete, and with what -/

/-- R26: completion with OUTLEN set, after a loop that reads and writes buffer words only. -/
theorem Touches.complete_setOutlen {R : Nat → Prop} {s t : State} (h : Touches R s t) (p : Nat) :
    complete 0 (t.setOutlen p) = { s with mem := t.mem, draws := t.draws, outlen := BitVec.ofNat 32 p,
                                          status := statusAfter 0 s } := by
  rw [complete_eq_statusAfter, h.frame]
  rfl

/-- R26: completion with OUTLEN and NBLK set, after a loop that reads and writes buffer words only. -/
theorem Touches.complete_setOutlen_setNblk {R : Nat → Prop} {s t : State} (h : Touches R s t) (p n : Nat) :
    complete 0 ((t.setOutlen p).setNblk n) =
      { s with mem := t.mem, draws := t.draws, outlen := BitVec.ofNat 32 p, nblk := BitVec.ofNat 32 n,
               status := statusAfter 0 s } := by
  rw [complete_eq_statusAfter, h.frame]
  rfl

/-- What XORV's loop over the elements leaves. -/
def xorvLoop (s : State) : State := forRange s.len.toNat (xorvElement (xorPlan s)) s

/-- What CBCE's loop over the blocks of the padded message leaves. -/
def cbceLoop (s : State) (bs : Nat) : State :=
  (forRange (roundup s.len.toNat bs / bs) (cbceBlock (cbcPlan s bs (roundup s.len.toNat bs)))
    (memReadSeq s.ivaddr.toNat bs s)).2

/-- What CBCD's loop over the ciphertext blocks leaves. -/
def cbcdLoop (s : State) (bs : Nat) : State :=
  (forRange (s.len.toNat / bs) (cbcdBlock (cbcPlan s bs s.len.toNat)) (memReadSeq s.ivaddr.toNat bs s)).2

theorem exec_xorv_of_fits {s : State} (hlen : s.len.toNat = s.ivlen.toNat)
    (hfit : regionFits s s.src.toNat s.len.toNat ∧ regionFits s s.ivaddr.toNat s.len.toNat ∧
      regionFits s s.dst.toNat s.len.toNat) :
    exec .xorv s = .next { s with mem := (xorvLoop s).mem, draws := (xorvLoop s).draws, outlen := s.len,
                                  status := statusAfter 0 s } := by
  have hcheck : xorvCheck s = .ok (xorPlan s) := by
    rw [xorvCheck_of_length_eq hlen, if_pos ((regionsFit_iff_inRange ..).mp hfit)]
  have hdone := (xorvLoop_touches (xorPlan s) s).complete_setOutlen s.len.toNat
  rw [BitVec.ofNat_toNat, BitVec.setWidth_eq] at hdone
  exact (runCommand_of_ok hcheck).trans (congrArg _ hdone)

theorem exec_cbce_of_fits {s : State} {bs : Nat} (hbs : effBS s = .ok bs) (hiv : s.ivlen.toNat = bs)
    (hfit : regionFits s s.src.toNat s.len.toNat ∧ regionFits s s.dst.toNat (roundup s.len.toNat bs) ∧
      regionFits s s.ivaddr.toNat bs) :
    exec .cbce s = .next { s with mem := (cbceLoop s bs).mem, draws := (cbceLoop s bs).draws,
                                  outlen := BitVec.ofNat 32 (roundup s.len.toNat bs),
                                  nblk := BitVec.ofNat 32 (roundup s.len.toNat bs / bs), status := statusAfter 0 s } := by
  have hcheck : cbceCheck s = .ok (cbcPlan s bs (roundup s.len.toNat bs)) := by
    rw [cbceCheck_of_ivlen_eq hbs hiv, if_pos ((regionsFit_iff_inRange ..).mp hfit)]
  exact (runCommand_of_ok hcheck).trans
    (congrArg _ ((cbceLoop_touches (cbcPlan s bs _) s).complete_setOutlen_setNblk _ _))

theorem exec_cbcd_of_fits {s : State} {bs : Nat} (hbs : effBS s = .ok bs) (hiv : s.ivlen.toNat = bs)
    (hmod : s.len.toNat % bs = 0)
    (hfit : regionFits s s.src.toNat s.len.toNat ∧ regionFits s s.dst.toNat s.len.toNat ∧
      regionFits s s.ivaddr.toNat bs) :
    exec .cbcd s = .next { s with mem := (cbcdLoop s bs).mem, draws := (cbcdLoop s bs).draws, outlen := s.len,
                                  nblk := BitVec.ofNat 32 (s.len.toNat / bs), status := statusAfter 0 s } := by
  have hcheck : cbcdCheck s = .ok (cbcPlan s bs s.len.toNat) := by
    rw [cbcdCheck_of_length_eq hbs hiv hmod, if_pos ((regionsFit_iff_inRange ..).mp hfit)]
  have hdone := (cbcdLoop_touches (cbcPlan s bs s.len.toNat) s).complete_setOutlen_setNblk s.len.toNat
    (s.len.toNat / bs)
  rw [BitVec.ofNat_toNat, BitVec.setWidth_eq] at hdone
  exact (runCommand_of_ok hcheck).trans (congrArg _ hdone)

/-- Settles O19: the run by `exec_xorv_of_fits` and what `xorvLoop_spec` says of its loop, the errors by XORV's check
part. -/
theorem xorvRunsOrReports : Obligations.XorvRunsOrReports := by
  refine ⟨decode_encode .xorv, fun s => ⟨fun hlen hsrc hiv hdst => ?_, fun hlen => ?_, fun hlen hfit => ?_⟩⟩
  · obtain ⟨x, y, htouch, hwords⟩ := xorvLoop_spec (xorPlan s) s s.len.toNat
    exact ⟨_, x, y, exec_xorv_of_fits hlen ⟨hsrc, hiv, hdst⟩, rfl, htouch.sameOutside fun _ => id, hwords⟩
  · exact runCommand_of_error_status (xorvCheck_of_length_ne hlen)
  · rw [regionsFit_iff_inRange] at hfit
    exact runCommand_of_error_status ((xorvCheck_of_length_eq hlen).trans (if_neg hfit))

/-- Settles O20: the run by `exec_cbce_of_fits` and what `cbceLoop_spec` says of its loop, whose blocks end at the padded
length; the errors by CBCE's check part. -/
theorem cbceRunsOrReports : Obligations.CbceRunsOrReports := by
  refine ⟨decode_encode .cbce, fun s => ⟨fun bs hbs hiv hsrc hdst hiva => ?_, fun hbs => ?_, fun bs hbs hiv => ?_,
    fun bs hbs hiv hfit => ?_⟩⟩
  · have hpos := effBS_pos hbs
    have hend := roundup_div_mul s.len.toNat hpos
    obtain ⟨m, iv, c, htouch, -, -, hivw, hm, hpad, hc, henc⟩ :=
      cbceLoop_spec (cbcPlan s bs (roundup s.len.toNat bs)) s (effBS_ok hbs).1 (roundup s.len.toNat bs / bs)
    refine ⟨_, m, iv, c, exec_cbce_of_fits hbs hiv ⟨hsrc, hdst, hiva⟩, rfl, htouch.sameOutside fun a ha => ?_, hivw,
      fun e he => hm e ?_ he, hpad, fun f hf => hc f ?_, henc⟩
    · exact hend ▸ ha
    · exact (he.trans_le (le_roundup _ hpos)).trans_eq hend.symm
    · exact hf.trans_eq hend.symm
  · exact runCommand_of_error_status (cbceCheck_of_effBS_error hbs)
  · exact runCommand_of_error_status (cbceCheck_of_ivlen_ne hbs hiv)
  · rw [regionsFit_iff_inRange] at hfit
    exact runCommand_of_error_status ((cbceCheck_of_ivlen_eq hbs hiv).trans (if_neg hfit))

/-- Settles O21: the run by `exec_cbcd_of_fits` and what `cbcdLoop_spec` says of its loop, whose blocks are the whole
ciphertext; the errors by CBCD's check part. -/
theorem cbcdRunsOrReports : Obligations.CbcdRunsOrReports := by
  refine ⟨decode_encode .cbcd, fun s => ⟨fun bs hbs hiv hmod hsrc hdst hiva => ?_, fun hbs => ?_,
    fun bs hbs hlen => ?_, fun bs hbs hiv hmod hfit => ?_⟩⟩
  · have hend : s.len.toNat / bs * bs = s.len.toNat := Nat.div_mul_cancel (Nat.dvd_of_mod_eq_zero hmod)
    obtain ⟨iv, c, htouch, -, -, hivw, hc, hdec⟩ :=
      cbcdLoop_spec (cbcPlan s bs s.len.toNat) s (effBS_ok hbs).1 (s.len.toNat / bs)
    refine ⟨_, iv, c, exec_cbcd_of_fits hbs hiv hmod ⟨hsrc, hdst, hiva⟩, rfl, htouch.sameOutside fun a ha => ?_, hivw,
      fun e he => hc e (he.trans_eq hend.symm), hdec⟩
    exact hend ▸ ha
  · exact runCommand_of_error_status (cbcdCheck_of_effBS_error hbs)
  · exact runCommand_of_error_status (cbcdCheck_of_length_ne hbs hlen)
  · rw [regionsFit_iff_inRange] at hfit
    exact runCommand_of_error_status ((cbcdCheck_of_length_eq hbs hiv hmod).trans (if_neg hfit))

end Sys2Proof.Machine

namespace Sys2Proof.Machine

/-! ## The default generator (spec/44_ivgen.md, R181) -/

theorem lcgNext_toNat (w : Word) : (lcgNext w).toNat = (1664525 * w.toNat + 1013904223) % 2 ^ 32 := by
  rw [lcgNext, add32_toNat, mul32_toNat]
  exact Nat.mod_add_mod ..

/-- Settles O24: the value and the visible state are the LCG step, whose number is that of `lcgNext_toNat`. -/
theorem defaultGeneratorIsTheLcg : Obligations.DefaultGeneratorIsTheLcg := fun g =>
  ⟨lcgNext_toNat g.view, rfl, fun _ => rfl⟩

/-! ## SEED (R184) -/

theorem exec_seed (s : State) :
    exec .seed s = .next { s with prngs := (seedFn s.params.prng s.seed).view,
                                  prngRest := (seedFn s.params.prng s.seed).rest, status := statusAfter 0 s } := by
  change execSeed s = _
  rw [execSeed, runCommand_of_ok (a := s.seed) rfl, complete_eq_statusAfter]
  rfl

/-- Settles O25: the run by `exec_seed`; under the default generator SeedFn is the identity. -/
theorem seedCompletes : Obligations.SeedCompletes :=
  ⟨decode_encode .seed, fun s => ⟨_, exec_seed s, rfl, rfl, fun hlcg => congrArg (fun c => (seedFn c s.seed).view) hlcg⟩⟩

/-! ## GENIV (R185) -/

theorem genivCheck_of_fits {s : State} (hfit : regionFits s s.dst.toNat s.len.toNat) :
    genivCheck s = .ok (s.dst.toNat, s.len.toNat) :=
  if_pos ((regionFits_iff_inRange ..).mp hfit)

theorem genivCheck_of_not_fits {s : State} (hfit : ¬ regionFits s s.dst.toNat s.len.toNat) :
    genivCheck s = .error .addressRange :=
  if_neg ((regionFits_iff_inRange ..).not.mp hfit)

/-- The generator state from which GENIV steps: SeedFn(SEED) with R = 1, the current state with R = 0. -/
def genivStart (r : Bool) (s : State) : PrngState := if r then seedFn s.params.prng s.seed else s.prng

/-- What GENIV's loop over the destination words leaves. -/
def genivLoop (r : Bool) (s : State) : State :=
  (forRange s.len.toNat (genivWord s.dst.toNat) (genivStart r s, s)).2

/-- GENIV writes buffer words and draws no unspecified value; the generator ends LEN steps on. -/
theorem genivEffect_eq (r : Bool) (s : State) :
    genivEffect r (s.dst.toNat, s.len.toNat) s =
      ((s.setMem (genivLoop r s).mem).setPrng (genStates s.params.prng (genivStart r s) s.len.toNat)).setOutlen
        s.len.toNat := by
  have hend := (genivLoop_spec s.dst.toNat (genivStart r s) s s.len.toNat).1
  have hframe : genivLoop r s = s.setMem (genivLoop r s).mem := by
    have h := (genivLoop_touches s.dst.toNat s.len.toNat (genivStart r s) s).frame
    rw [genivLoop_draws] at h
    exact h
  rw [← hend, ← hframe]
  rfl

theorem exec_geniv_of_fits (r : Bool) {s : State} (hfit : regionFits s s.dst.toNat s.len.toNat) :
    exec (.geniv r) s =
      .next { s with mem := (genivLoop r s).mem,
                     prngs := (genStates s.params.prng (genivStart r s) s.len.toNat).view,
                     prngRest := (genStates s.params.prng (genivStart r s) s.len.toNat).rest,
                     outlen := s.len, status := statusAfter 0 s } := by
  have hlen : BitVec.ofNat 32 s.len.toNat = s.len := by rw [BitVec.ofNat_toNat, BitVec.setWidth_eq]
  change runCommand genivCheck (genivEffect r) s = _
  rw [runCommand_of_ok (genivCheck_of_fits hfit), complete_eq_statusAfter, genivEffect_eq, State.setOutlen, hlen]
  rfl

theorem genivLoop_sameOutside (r : Bool) (s : State) : sameOutside s.dst.toNat s.len.toNat s (genivLoop r s) :=
  (genivLoop_touches s.dst.toNat s.len.toNat (genivStart r s) s).sameOutside fun _ => id

/-- R182, R185: word i is the value of step i, put in range. -/
theorem genivLoop_readWord (r : Bool) (s : State) {i : Nat} (hi : i < s.len.toNat) :
    (genivLoop r s).mem.readWord (s.dst.toNat + i) =
      some (ivRange s.ctrl (nextFn s.params.prng (genStates s.params.prng (genivStart r s) i)).1) :=
  (genivLoop_spec s.dst.toNat (genivStart r s) s s.len.toNat).2 i hi

/-- Settles O26: the run by `exec_geniv_of_fits`, the generator states being `genStates` from `genivStart`; the error by
GENIV's check part, which is the same for either R. -/
theorem genivRunsOrReports : Obligations.GenivRunsOrReports := by
  refine ⟨⟨decode_encode (.geniv false), decode_encode (.geniv true)⟩, fun s r => ⟨fun hfit => ?_, fun hfit => ?_⟩⟩
  · exact ⟨_, genStates s.params.prng (genivStart r s), exec_geniv_of_fits r hfit, rfl, genivLoop_sameOutside r s, rfl,
      fun i hi => ⟨rfl, genivLoop_readWord r s hi⟩⟩
  · exact runCommand_of_error_status (genivCheck_of_not_fits hfit)

end Sys2Proof.Machine

namespace Sys2Proof.Machine

/-! ## Host accesses while a command runs (spec/70_reset_and_hazards.md R240, R241) -/

theorem hostRead_of_busy {s : State} (h : statusBusy s.status = true) (t : Target) :
    hostRead t s = (readBusy t s).2.setRdata (readBusy t s).1 := by simp [hostRead, h]

/-- Settles O38: the event is a host write of the offset's target, and a host write while busy does not look at its
target. -/
theorem writeWhileBusyIsDropped : Obligations.WriteWhileBusyIsDropped := by
  intro s es o v hbusy h4 ho hev
  rw [step_of_write_offset h4 ho hev, hostWrite_of_busy (s := s.setEvents es) hbusy]
  rfl

/-- Settles O39: offset 0x004 is STATUS, which a busy read shows; for any other offset the frame of a host read is all
the rule asks. -/
theorem readWhileBusy : Obligations.ReadWhileBusy := by
  intro s es o hbusy h4 ho hev
  have hstep := step_of_read_offset h4 ho hev
  refine ⟨fun hstatus => ?_, fun _ => ⟨_, hstep, hostRead_frame (targetAt o) (s.setEvents es)⟩⟩
  have ht : targetAt o = .register .status := hstatus ▸ rfl
  rw [hstep, ht, hostRead_of_busy (s := s.setEvents es) hbusy]
  rfl

end Sys2Proof.Machine

namespace Sys2Proof.Machine

/-! ## Decoding and encoding (spec/30_encoding.md R80 to R83) -/

/-- R81: no operand of a command can be ill formed. -/
theorem instr_wellFormed (i : Instr) : i.wellFormed = true := by cases i <;> rfl

/-- Settles O2: decoding an encoded command gives it back, and a word that decodes to a command is its encoding. -/
theorem decodeOfEncode : Obligations.DecodeOfEncode :=
  ⟨fun i _ => decode_encode i, fun _ i h => ⟨instr_wellFormed i, (eq_encode_of_decode h).symm⟩⟩

end Sys2Proof.Machine

namespace Sys2Proof.Machine

/-! ## What one step can do

`Transition s t` lists the changes of the block that a step can make once the event is used up, each through the
model's own operation; every invariant below is kept by each of them. -/

/-- The changes one step can make (R201, R221, R230, R61, R240). -/
inductive Transition (s : State) : State → Prop where
  | unchanged : Transition s s
  /-- a completion with an error code of R202 -/
  | failed {c : Nat} (hc : c ≤ 4) : Transition s (complete c s)
  /-- a completion with success -/
  | completed {u : State} (h : Effect s u) : Transition s (complete 0 u)
  | cleared : Transition s (hostReset s)
  | readBy (target : Target) : Transition s (hostRead target s)
  /-- a write while a command runs -/
  | dropped : Transition s (s.setStatus (overrunStatus s.status))
  | register (r : Reg) (v : Word) : Transition s (writeReg s v r)
  | buffer {a : Nat} (ha : a < s.params.memWords) (v : Word) : Transition s (memWrite a v s)

theorem Transition.of_exec {s t : State} {i : Instr} (h : exec i s = .next t) : Transition s t := by
  obtain ⟨e, -, he⟩ | ⟨u, hu, heffect⟩ := exec_cases i s
  · obtain rfl := next_inj (he.symm.trans h)
    exact .failed e.code_le_four
  · obtain rfl := next_inj (hu.symm.trans h)
    exact .completed heffect

theorem Transition.of_engineTurn {s t : State} (h : engineTurn s = .next t) : Transition s t := by
  obtain ⟨-, hidle⟩ | ⟨-, -, hillegal⟩ | ⟨i, -, -, hexec⟩ := engineTurn_cases s
  · obtain rfl := next_inj (hidle.symm.trans h)
    exact .unchanged
  · obtain rfl := next_inj (hillegal.symm.trans h)
    exact .failed le_rfl
  · exact .of_exec (hexec.symm.trans h)

theorem Transition.of_hostWrite {s : State} {target : Target}
    (htarget : ∀ a, target = .buffer a → a < s.params.memWords) (v : Word) : Transition s (hostWrite target v s) := by
  cases hbusy : statusBusy s.status with
  | true =>
    rw [hostWrite_of_busy hbusy]
    exact .dropped
  | false =>
    rw [hostWrite_of_idle hbusy]
    cases target with
    | register r => exact .register r v
    | unmapped => exact .unchanged
    | buffer a => exact .buffer (htarget a rfl) v

theorem busRead_eq_next {s t : State} {addr width : Nat} (h : busRead addr width s = .next t) :
    ∃ target, busTarget s.params addr width = .ok target ∧ t = hostRead target s := by
  unfold busRead at h
  split at h
  · cases h
  · next target htarget => exact ⟨target, htarget, (next_inj h).symm⟩

theorem busWrite_eq_next {s t : State} {addr width : Nat} {v : Word} (h : busWrite addr width v s = .next t) :
    ∃ target, busTarget s.params addr width = .ok target ∧ t = hostWrite target v s := by
  unfold busWrite at h
  split at h
  · cases h
  · next target htarget => exact ⟨target, htarget, (next_inj h).symm⟩

/-- Every step uses up the first event, if there is one, and then makes one of the listed changes. -/
theorem transition_of_step {s t : State} (h : step s = .next t) : Transition (s.setEvents s.events.tail) t := by
  cases hev : s.events with
  | nil =>
    have hsame : s.setEvents [] = s := hev ▸ rfl
    exact hsame.symm ▸ .of_engineTurn ((step_of_nil hev).symm.trans h)
  | cons event es =>
    cases event with
    | engine => exact .of_engineTurn ((step_of_engine hev).symm.trans h)
    | reset =>
      obtain rfl := next_inj ((step_of_reset hev).symm.trans h)
      exact .cleared
    | read addr width =>
      obtain ⟨target, -, rfl⟩ := busRead_eq_next ((step_of_read hev).symm.trans h)
      exact .readBy target
    | write addr width v =>
      obtain ⟨target, htarget, rfl⟩ := busWrite_eq_next ((step_of_write hev).symm.trans h)
      exact .of_hostWrite (fun a ha => busTarget_buffer_lt (ha ▸ htarget)) v

/-! ## What a change leaves, by the register or part of the state it is about -/

@[simp] theorem writeReg_mem (s : State) (v : Word) (r : Reg) : (writeReg s v r).mem = s.mem := by cases r <;> rfl

@[simp] theorem writeReg_params (s : State) (v : Word) (r : Reg) : (writeReg s v r).params = s.params := by
  cases r <;> rfl

@[simp] theorem writeReg_outlen (s : State) (v : Word) (r : Reg) : (writeReg s v r).outlen = s.outlen := by
  cases r <;> rfl

@[simp] theorem writeReg_nblk (s : State) (v : Word) (r : Reg) : (writeReg s v r).nblk = s.nblk := by cases r <;> rfl

/-- R23, R25, R40: of the registers only CMD's write reaches STATUS. -/
theorem writeReg_status (s : State) (v : Word) (r : Reg) :
    (writeReg s v r).status = if r = .cmd then acceptedStatus else s.status := by cases r <;> rfl

/-- R27: only CTRL's write reaches CTRL, and it stores the two implemented bits. -/
theorem writeReg_ctrl (s : State) (v : Word) (r : Reg) :
    (writeReg s v r).ctrl = if r = .ctrl then ctrlImplemented v else s.ctrl := by cases r <;> rfl

theorem Effect.params_eq {s t : State} (h : Effect s t) : t.params = s.params := by rw [h.frame]
theorem Effect.ctrl_eq {s t : State} (h : Effect s t) : t.ctrl = s.ctrl := by rw [h.frame]
theorem Effect.status_eq {s t : State} (h : Effect s t) : t.status = s.status := by rw [h.frame]

/-! ## The buffer memory keeps its form (R60, R64, R66) -/

theorem MemoryInv.congr {s t : State} (h : MemoryInv s) (hmem : t.mem = s.mem) (hparams : t.params = s.params) :
    MemoryInv t :=
  ⟨hmem ▸ h.canonical, hmem ▸ h.whole, hmem ▸ hparams ▸ h.within⟩

theorem memoryInv_of_mem_nil {s : State} (h : s.mem = []) : MemoryInv s :=
  ⟨by simp [h], by simp [h], by simp [h]⟩

theorem Transition.memoryInv {s t : State} (htr : Transition s t) (h : MemoryInv s) : MemoryInv t := by
  cases htr with
  | unchanged => exact h
  | failed => exact h.congr rfl rfl
  | completed heffect =>
    exact ⟨heffect.wf h.canonical, heffect.whole h.whole, heffect.params_eq ▸ heffect.within h.within⟩
  | cleared => exact memoryInv_of_mem_nil rfl
  | readBy target => exact h.congr (by rw [hostRead_frame]) (by rw [hostRead_frame])
  | dropped => exact h.congr rfl rfl
  | register r v => exact h.congr (writeReg_mem s v r) (writeReg_params s v r)
  | buffer ha v =>
    exact ⟨Memory.writeWord_wf _ _ h.canonical, Memory.writeWord_whole _ _ h.whole,
      Memory.writeWord_within _ ha h.within⟩

/-- Settles O50: each change a step can make keeps the memory's form; a host write reaches only words of the buffer. -/
theorem everyStepKeepsMemoryInv : Obligations.EveryStepKeepsMemoryInv := by
  intro s t h hstep
  exact (transition_of_step hstep).memoryInv (h.congr rfl rfl)

/-! ## STATUS stays a word that can be (R24, R202) -/

theorem statusLegal_statusAfter {c : Nat} (hc : c ≤ 4) (s : State) : statusLegal (statusAfter c s) := by
  obtain ⟨hbusy, hdone, herr, -, hcode, hlt⟩ := statusAfter_fields (c := c) (by omega) s
  refine ⟨hlt, fun h => Bool.false_ne_true (hbusy.symm.trans h.1), hcode.trans_le hc, ?_, fun _ => hdone⟩
  rw [herr, hcode, bne_iff_ne]

/-- R240: OVR is bit 3, of which `statusLegal` says nothing. -/
theorem statusLegal_overrunStatus {w : Word} (h : statusLegal w) : statusLegal (overrunStatus w) := by
  obtain ⟨hlt, hbusy, hcode, herr, hdone⟩ := h
  have hnum : (overrunStatus w).toNat = w.toNat ||| 8 := BitVec.toNat_or ..
  have hfield : (overrunStatus w).toNat / 16 % 16 = w.toNat / 16 % 16 := by
    rw [hnum, ← Nat.shiftRight_eq_div_pow _ 4, Nat.shiftRight_or_distrib, show 8 >>> 4 = 0 from rfl, Nat.or_zero,
      Nat.shiftRight_eq_div_pow]
  have hbit : ∀ i < 3, (overrunStatus w).getLsbD i = w.getLsbD i := by
    intro i hi
    have h8 : ∀ i < 3, (0x8#32).getLsbD i = false := by decide
    rw [overrunStatus, BitVec.getLsbD_or, h8 i hi, Bool.or_false]
  rw [statusLegal, hfield, hbit 0 (by decide), hbit 1 (by decide), hbit 2 (by decide), hnum]
  exact ⟨Nat.or_lt_two_pow (n := 8) hlt (by decide), hbusy, hcode, herr, hdone⟩

theorem StatusInv.congr {s t : State} (h : StatusInv s) (hstatus : t.status = s.status) : StatusInv t := by
  unfold StatusInv
  exact hstatus ▸ h

theorem statusInv_complete {c : Nat} (hc : c ≤ 4) (s : State) : StatusInv (complete c s) := by
  rw [complete_eq_statusAfter]
  exact statusLegal_statusAfter hc s

theorem Transition.statusInv {s t : State} (htr : Transition s t) (h : StatusInv s) : StatusInv t := by
  cases htr with
  | unchanged => exact h
  | failed hc => exact statusInv_complete hc s
  | completed => exact statusInv_complete (Nat.zero_le 4) _
  | cleared => exact (by decide : statusLegal 0#32)
  | readBy target => exact h.congr (by rw [hostRead_frame])
  | dropped => exact statusLegal_overrunStatus h
  | register r v =>
    unfold StatusInv
    rw [writeReg_status]
    split
    · decide
    · exact h
  | buffer => exact h

/-- Settles O51: acceptance, completion and a dropped write are the changes that reach STATUS, and each leaves a legal
word. -/
theorem everyStepKeepsStatusInv : Obligations.EveryStepKeepsStatusInv := by
  intro s t h hstep
  exact (transition_of_step hstep).statusInv (h.congr rfl)

/-! ## CTRL's reserved bits and the reported lengths (R27, R32, R33) -/

theorem ctrlImplemented_lt (v : Word) : (ctrlImplemented v).toNat < 4 := by
  rw [ctrlImplemented, BitVec.toNat_and]
  exact Nat.and_lt_two_pow (n := 2) _ (by decide)

/-- A length that fits the buffer still does when a 32-bit register holds it. -/
theorem toNat_le_of_eq_or_ofNat {v w : Word} {m : Nat} (hw : w.toNat ≤ m)
    (h : v = w ∨ ∃ n, n ≤ m ∧ v = BitVec.ofNat 32 n) : v.toNat ≤ m := by
  obtain rfl | ⟨n, hn, rfl⟩ := h
  · exact hw
  · rw [BitVec.toNat_ofNat]
    exact (Nat.mod_le _ _).trans hn

theorem RegisterInv.congr {s t : State} (h : RegisterInv s) (hctrl : t.ctrl = s.ctrl) (houtlen : t.outlen = s.outlen)
    (hnblk : t.nblk = s.nblk) (hparams : t.params = s.params) : RegisterInv t :=
  ⟨hctrl ▸ h.ctrl, houtlen ▸ hparams ▸ h.outlen, hnblk ▸ hparams ▸ h.nblk⟩

theorem Transition.registerInv {s t : State} (htr : Transition s t) (h : RegisterInv s) : RegisterInv t := by
  cases htr with
  | unchanged => exact h
  | failed => exact h.congr rfl rfl rfl rfl
  | completed heffect =>
    exact ⟨heffect.ctrl_eq ▸ h.ctrl, heffect.params_eq ▸ toNat_le_of_eq_or_ofNat h.outlen heffect.outlen,
      heffect.params_eq ▸ toNat_le_of_eq_or_ofNat h.nblk heffect.nblk⟩
  | cleared => exact ⟨(by decide : (0#32).toNat < 4), Nat.zero_le _, Nat.zero_le _⟩
  | readBy target =>
    exact h.congr (by rw [hostRead_frame]) (by rw [hostRead_frame]) (by rw [hostRead_frame])
      (by rw [hostRead_frame])
  | dropped => exact h.congr rfl rfl rfl rfl
  | register r v =>
    refine ⟨?_, by simpa using h.outlen, by simpa using h.nblk⟩
    rw [writeReg_ctrl]
    split
    · exact ctrlImplemented_lt v
    · exact h.ctrl
  | buffer => exact h.congr rfl rfl rfl rfl

/-- Settles O52: a host write of CTRL stores its two implemented bits, and a command reports only lengths that passed
its region check. -/
theorem everyStepKeepsRegisterInv : Obligations.EveryStepKeepsRegisterInv := by
  intro s t h hstep
  exact (transition_of_step hstep).registerInv (h.congr rfl rfl rfl rfl)

/-- Settles O49: the reset state has an empty memory and every register 0. -/
theorem invariantsHoldAtReset : Obligations.InvariantsHoldAtReset :=
  ⟨memoryInv_of_mem_nil rfl, (by decide : statusLegal 0#32), ⟨by decide, Nat.zero_le _, Nat.zero_le _⟩⟩

/-! ## Runs (R60, R62) -/

theorem writeReg_events (s : State) (v : Word) (r : Reg) : (writeReg s v r).events = s.events := by cases r <;> rfl

theorem Effect.events_eq {s t : State} (h : Effect s t) : t.events = s.events := by rw [h.frame]

theorem Transition.params_eq {s t : State} (htr : Transition s t) : t.params = s.params := by
  cases htr with
  | completed heffect => exact heffect.params_eq
  | readBy target => rw [hostRead_frame]
  | register r v => exact writeReg_params s v r
  | unchanged | failed | cleared | dropped | buffer => rfl

theorem Transition.events_eq {s t : State} (htr : Transition s t) : t.events = s.events := by
  cases htr with
  | completed heffect => exact heffect.events_eq
  | readBy target => rw [hostRead_frame]
  | register r v => exact writeReg_events s v r
  | unchanged | failed | cleared | dropped | buffer => rfl

theorem exists_engineTurn (s : State) : ∃ t, engineTurn s = .next t := by
  obtain ⟨-, h⟩ | ⟨-, -, h⟩ | ⟨i, -, -, h⟩ := engineTurn_cases s
  · exact ⟨_, h⟩
  · exact ⟨_, h⟩
  · obtain ⟨e, -, he⟩ | ⟨u, hu, -⟩ := exec_cases i s
    · exact ⟨_, h.trans he⟩
    · exact ⟨_, h.trans hu⟩

/-- R60, R62: an access that is part of the interface has a target. -/
theorem exists_busTarget {p : Params} {addr width : Nat}
    (h : p.base ≤ addr ∧ addr < p.base + (0x1000 + 4 * p.memWords) ∧ width = 4 ∧ (addr - p.base) % 4 = 0) :
    ∃ target, busTarget p addr width = .ok target := by
  obtain ⟨hlo, hhi, rfl, halign⟩ := h
  obtain ⟨o, rfl⟩ := Nat.exists_eq_add_of_le hlo
  rw [Nat.add_sub_cancel_left] at halign
  exact ⟨_, busTarget_of_offset halign (Nat.lt_of_add_lt_add_left hhi)⟩

theorem exists_step_of_legal {s : State} (h : ∀ e ∈ s.events, eventLegal s.params e) : ∃ t, step s = .next t := by
  cases hev : s.events with
  | nil => exact step_of_nil hev ▸ exists_engineTurn s
  | cons event es =>
    have hlegal : eventLegal s.params event := h event (hev ▸ List.mem_cons_self)
    cases event with
    | engine => exact step_of_engine hev ▸ exists_engineTurn _
    | reset => exact ⟨_, step_of_reset hev⟩
    | read addr width =>
      obtain ⟨target, htarget⟩ := exists_busTarget hlegal
      exact ⟨hostRead target (s.setEvents es), by simp [step_of_read hev, busRead, htarget]⟩
    | write addr width v =>
      obtain ⟨target, htarget⟩ := exists_busTarget hlegal
      exact ⟨hostWrite target v (s.setEvents es), by simp [step_of_write hev, busWrite, htarget]⟩

/-- Settles O53, by induction on the number of steps: a step is taken, the events left are some of those there were, and
the parameters by which they are legal stay. -/
theorem legalRunsNeverStop : Obligations.LegalRunsNeverStop := by
  intro k
  induction k with
  | zero => exact fun s _ => ⟨s, rfl⟩
  | succ k ih =>
    intro s h
    obtain ⟨t, hstep⟩ := exists_step_of_legal h
    have htr := transition_of_step hstep
    have hrest : ∀ e ∈ t.events, eventLegal t.params e := by
      rw [htr.events_eq, htr.params_eq]
      exact fun e he => h e (List.mem_of_mem_tail he)
    obtain ⟨u, hrun⟩ := ih t hrest
    exact ⟨u, (run_succ (M := core) hstep k).trans hrun⟩

end Sys2Proof.Machine

namespace Sys2Proof.Machine

/-! ## The laws of the Word32 primitives (spec/40_arith.md R112) -/

/-- R103: a left shift is a product with a power of two, whatever the amount, since the word of 2 ^ n is 0 from n = 32
on. -/
theorem shl32_eq_mul32 (a n : Word) : shl32 a n = mul32 a (BitVec.ofNat 32 (2 ^ n.toNat)) := by
  apply BitVec.eq_of_toNat_eq
  rw [shl32_toNat, mul32_toNat, BitVec.toNat_ofNat, Nat.mul_mod_mod]

theorem xor32_cancel_right (a b : Word) : xor32 (xor32 a b) b = a := by
  rw [xor32, xor32, BitVec.xor_assoc, BitVec.xor_self, BitVec.xor_zero]

/-- Settles O5: the ring laws of words, and `shl32_eq_mul32`. -/
theorem arithmeticLaws : Obligations.ArithmeticLaws := fun a b c n =>
  ⟨BitVec.add_sub_cancel a b, BitVec.sub_add_cancel a b, xor32_cancel_right a b, BitVec.add_comm a b,
    BitVec.mul_comm a b, BitVec.xor_comm a b, BitVec.add_assoc a b c, BitVec.mul_assoc a b c, BitVec.xor_assoc a b c,
    fun _ => shl32_eq_mul32 a n⟩

/-! ## The schedule of DECB (R123, R125) -/

/-- R123: the accumulator is DSUM0 less n deltas after n rounds, and the two words are those of the document's
schedule. -/
theorem forRange_decryptRound_eq_tea (k : Key) (v0 v1 : Word) (n : Nat) :
    forRange n (fun _ => decryptRound k) ⟨dsum0, v0, v1⟩ =
      ⟨dsum0 - BitVec.ofNat 32 (n * 0x9E3779B9), (teaDecryptRounds k.k0 k.k1 k.k2 k.k3 n (v0, v1)).1,
        (teaDecryptRounds k.k0 k.k1 k.k2 k.k3 n (v0, v1)).2⟩ := by
  induction n with
  | zero => rfl
  | succ n ih =>
    have hsum : dsum0 - BitVec.ofNat 32 (n * 0x9E3779B9) - delta = dsum0 - BitVec.ofNat 32 ((n + 1) * 0x9E3779B9) := by
      rw [Nat.succ_mul, BitVec.ofNat_add, ← sub_sub]; rfl
    rw [forRange_succ, ih]
    simp only [decryptRound, teaDecryptRounds, mixF_eq, sub32, hsum]
    rfl

theorem decryptBlock_eq_tea (b : Block) (k : Key) :
    decryptBlock b k = ⟨(teaDecryptRounds k.k0 k.k1 k.k2 k.k3 32 (b.v0, b.v1)).1,
      (teaDecryptRounds k.k0 k.k1 k.k2 k.k3 32 (b.v0, b.v1)).2⟩ := by
  rw [decryptBlock, forRange_decryptRound_eq_tea]

/-- Settles O10: the command is the block template with DecryptBlock, which is the document's schedule. -/
theorem decbCompletes : Obligations.DecbCompletes :=
  ⟨decryptBlock_eq_tea, decode_encode .decb, fun s =>
    have hnext := blockCommand_next (decryptBlock_eq_tea (blockOperand s) (keyOperand s))
    hnext⟩

/-- R26: of the state before, the STATUS word of a completion depends on OVR alone. -/
theorem statusAfter_congr {s t : State} (c : Nat) (h : t.status.getLsbD 3 = s.status.getLsbD 3) :
    statusAfter c t = statusAfter c s := by
  unfold statusAfter
  rw [h]

/-- A block command with g undoes one with f when g undoes f, and OVR survives both completions. -/
theorem blockCommand_inverse {f g : Block → Key → Block} (h : ∀ b k, g (f b k) k = b) (s : State) :
    ∃ t, blockCommand f s = .next t ∧ blockCommand g t = .next { s with status := statusAfter 0 s } := by
  obtain ⟨-, -, -, hovr, -⟩ := statusAfter_fields (c := 0) (by decide) s
  let c := f (blockOperand s) (keyOperand s)
  let t : State := { s with v0 := c.v0, v1 := c.v1, status := statusAfter 0 s }
  have hback : g (blockOperand t) (keyOperand t) = blockOperand s := h (blockOperand s) (keyOperand s)
  have hnext := blockCommand_next hback
  rw [statusAfter_congr (s := s) (t := t) 0 hovr] at hnext
  exact ⟨t, blockCommand_next rfl, hnext⟩

/-- Settles O12: each cipher undoes the other. -/
theorem encbDecbRoundTrip : Obligations.EncbDecbRoundTrip := fun s =>
  ⟨blockCommand_inverse decryptBlock_encryptBlock s, blockCommand_inverse encryptBlock_decryptBlock s⟩

/-! ## Two-stage padding (spec/42_framer.md R144) -/

theorem roundup_le_of_mod {n m k : Nat} (hm : 0 < m) (hk : k % m = 0) (hnk : n ≤ k) : roundup n m ≤ k :=
  (roundup_mono m hnk).trans_eq (roundup_of_mod hm hk)

/-- A multiple of an even number is even. -/
theorem even_of_mod {n m : Nat} (heven : m % 2 = 0) (hmod : n % m = 0) : n % 2 = 0 :=
  Nat.mod_eq_zero_of_dvd ((Nat.dvd_of_mod_eq_zero heven).trans (Nat.dvd_of_mod_eq_zero hmod))

/-- Settles O14: the padded length is itself even, so it is at least the even length, and padding is monotone. -/
theorem twoStagePaddingIsOne : Obligations.TwoStagePaddingIsOne := by
  intro n bs hpos heven
  have hmod := roundup_mod n bs
  have hle : roundup n 2 ≤ roundup n bs :=
    roundup_le_of_mod Nat.two_pos (even_of_mod heven hmod) (le_roundup n hpos)
  exact Nat.le_antisymm (roundup_le_of_mod hpos hmod hle) (roundup_mono bs (le_roundup n Nat.two_pos))

end Sys2Proof.Machine

namespace Sys2Proof.Machine

/-! ## Completion and errors of every command (spec/60_exceptions.md R200, R202) -/

/-- The table's codes are those of the errors that a command may raise. -/
theorem code_mem_errorCodes {i : Instr} {e : CmdError} (h : e ∈ mayRaise i) : e.code ∈ errorCodes i := by
  revert e
  cases i with
  | geniv r => simp [mayRaise, errorCodes, CmdError.code]
  | _ => decide

/-- Settles O29: a command raises one of its errors or completes with success, and an effect part leaves STATUS. -/
theorem everyCommandCompletes : Obligations.EveryCommandCompletes := by
  intro i s
  obtain ⟨e, he, hexec⟩ | ⟨u, hexec, heffect⟩ := exec_cases i s
  · exact ⟨_, e.code, hexec, .inr (code_mem_errorCodes he), completedStatus_eq_statusAfter s e.code⟩
  · refine ⟨_, 0, hexec, .inl rfl, ?_⟩
    rw [complete_status, heffect.status_eq, completedStatus_eq_statusAfter]

/-- Settles O30: a command that completes with success leaves STATUS.ERR = 0, and one that raises an error changes
STATUS alone. -/
theorem errorsChangeOnlyStatus : Obligations.ErrorsChangeOnlyStatus := by
  intro i s t h herr
  obtain ⟨e, -, hexec⟩ | ⟨u, hexec, -⟩ := exec_cases i s
  · obtain rfl := next_inj (hexec.symm.trans h)
    rfl
  · obtain rfl := next_inj (hexec.symm.trans h)
    rw [complete_eq_statusAfter] at herr
    exact absurd herr (by simpa using statusAfter_zero_noErr u)

/-- Settles O31: completion writes STATUS, and the frame of an effect part names no register that only the host
writes. -/
theorem noCommandWritesHostRegisters : Obligations.NoCommandWritesHostRegisters := by
  intro i s t h
  obtain ⟨e, -, hexec⟩ | ⟨u, hexec, heffect⟩ := exec_cases i s
  · obtain rfl := next_inj (hexec.symm.trans h)
    simp
  · obtain rfl := next_inj (hexec.symm.trans h)
    rw [heffect.frame]
    simp

/-! ## The writers of the result registers (R32 to R35, R38, R86) -/

theorem runCommand_next_cases {α : Type} {check : State → Except CmdError α} {effect : α → State → State} {s t : State}
    (h : runCommand check effect s = .next t) :
    t = { s with status := t.status } ∨ ∃ a, check s = .ok a ∧ t = complete 0 (effect a s) := by
  obtain ⟨e, -, he⟩ | ⟨a, ha, hrun⟩ := runCommand_cases check effect s
  · obtain rfl := next_inj (he.symm.trans h)
    exact .inl rfl
  · exact .inr ⟨a, ha, (next_inj (hrun.symm.trans h)).symm⟩

theorem arithCommand_frame {op : Word → Word → Word} {s t : State} (h : arithCommand op s = .next t) :
    t = { s with res := t.res, status := t.status } := by
  obtain rfl := next_inj ((arithCommand_next rfl).symm.trans h)
  rfl

theorem blockCommand_frame {cipher : Block → Key → Block} {s t : State} (h : blockCommand cipher s = .next t) :
    t = { s with v0 := t.v0, v1 := t.v1, status := t.status } := by
  obtain rfl := next_inj ((blockCommand_next rfl).symm.trans h)
  rfl

/-- PAD and XORV write buffer words and OUTLEN. -/
theorem runCommand_setOutlen_frame {α : Type} {check : State → Except CmdError α} {effect : α → State → State}
    {s t : State} (heffect : ∀ a, ∃ R u n, Touches R s u ∧ effect a s = u.setOutlen n)
    (h : runCommand check effect s = .next t) :
    t = { s with mem := t.mem, draws := t.draws, outlen := t.outlen, status := t.status } := by
  obtain herror | ⟨a, -, rfl⟩ := runCommand_next_cases h
  · rw [herror]
  · obtain ⟨R, u, n, htouch, heq⟩ := heffect a
    rw [heq, htouch.complete_setOutlen]

/-- SPLIT, CBCE and CBCD write buffer words, OUTLEN and NBLK. -/
theorem runCommand_setNblk_frame {α : Type} {check : State → Except CmdError α} {effect : α → State → State}
    {s t : State} (heffect : ∀ a, ∃ R u p n, Touches R s u ∧ effect a s = (u.setOutlen p).setNblk n)
    (h : runCommand check effect s = .next t) :
    t = { s with mem := t.mem, draws := t.draws, outlen := t.outlen, nblk := t.nblk, status := t.status } := by
  obtain herror | ⟨a, -, rfl⟩ := runCommand_next_cases h
  · rw [herror]
  · obtain ⟨R, u, p, n, htouch, heq⟩ := heffect a
    rw [heq, htouch.complete_setOutlen_setNblk]

theorem execPad_frame {s t : State} (h : execPad s = .next t) :
    t = { s with mem := t.mem, draws := t.draws, outlen := t.outlen, status := t.status } :=
  runCommand_setOutlen_frame (fun f => ⟨_, _, _, appendPad_touches f.1 f.2 s, rfl⟩) h

theorem execXorv_frame {s t : State} (h : execXorv s = .next t) :
    t = { s with mem := t.mem, draws := t.draws, outlen := t.outlen, status := t.status } :=
  runCommand_setOutlen_frame (fun p => ⟨_, _, _, xorvLoop_touches p s, rfl⟩) h

theorem execSplit_frame {s t : State} (h : execSplit s = .next t) :
    t = { s with mem := t.mem, draws := t.draws, outlen := t.outlen, nblk := t.nblk, status := t.status } :=
  runCommand_setNblk_frame (fun f => ⟨_, _, _, _, appendPad_touches f.1 0#32 s, rfl⟩) h

theorem execCbce_frame {s t : State} (h : execCbce s = .next t) :
    t = { s with mem := t.mem, draws := t.draws, outlen := t.outlen, nblk := t.nblk, status := t.status } :=
  runCommand_setNblk_frame (fun p => ⟨_, _, _, _, cbceLoop_touches p s, rfl⟩) h

theorem execCbcd_frame {s t : State} (h : execCbcd s = .next t) :
    t = { s with mem := t.mem, draws := t.draws, outlen := t.outlen, nblk := t.nblk, status := t.status } :=
  runCommand_setNblk_frame (fun p => ⟨_, _, _, _, cbcdLoop_touches p s, rfl⟩) h

theorem execSeed_frame {s t : State} (h : execSeed s = .next t) :
    t = { s with prngs := t.prngs, prngRest := t.prngRest, status := t.status } := by
  obtain rfl := next_inj ((exec_seed s).symm.trans h)
  rfl

theorem execGeniv_frame {r : Bool} {s t : State} (h : execGeniv r s = .next t) :
    t = { s with mem := t.mem, prngs := t.prngs, prngRest := t.prngRest, outlen := t.outlen, status := t.status } := by
  obtain herror | ⟨d, hd, rfl⟩ := runCommand_next_cases h
  · rw [herror]
  · obtain ⟨-, rfl⟩ := genivCheck_ok hd
    rw [genivEffect_eq]
    rfl

/-- Settles O32, command by command: the frame of each names the result registers it writes. -/
theorem resultRegistersHaveTheirWriters : Obligations.ResultRegistersHaveTheirWriters := by
  intro i s t h
  cases i
  case add | sub | mul | shl | shr | xor =>
    rw [arithCommand_frame h]; simp [sameMemory]
  case encb | decb => rw [blockCommand_frame h]; simp [sameMemory]
  case pad => rw [execPad_frame h]; simp
  case split => rw [execSplit_frame h]; simp
  case xorv => rw [execXorv_frame h]; simp
  case cbce => rw [execCbce_frame h]; simp
  case cbcd => rw [execCbcd_frame h]; simp
  case seed => rw [execSeed_frame h]; simp [sameMemory]
  case geniv r => rw [execGeniv_frame h]; cases r <;> simp

end Sys2Proof.Machine

namespace Sys2Proof.Machine

/-! ## The engine's turn (spec/60_exceptions.md R201, R221) -/

theorem engineTurn_of_idle {s : State} (h : statusBusy s.status = false) : engineTurn s = .next s := by
  simp [engineTurn, h]

theorem engineTurn_of_decode {s : State} {i : Instr} (hbusy : statusBusy s.status = true) (hd : decode s.cmd = .ok i) :
    engineTurn s = exec i s := by
  simp [engineTurn, hbusy, hd]

/-- R84: a pending word that R82 does not list completes with IllegalCommand. -/
theorem engineTurn_of_illegal {s : State} (hbusy : statusBusy s.status = true) (hlegal : legalWord s.cmd = false) :
    engineTurn s = .next { s with status := statusAfter 4 s } := by
  cases hd : decode s.cmd with
  | ok i => exact absurd (exists_decode_iff_legalWord.mp ⟨i, hd⟩) (by simp [hlegal])
  | error e =>
    rw [← complete_eq_statusAfter]
    simp [engineTurn, hbusy, hd, raiseError, CmdError.code]

/-- Settles O1: each word is the encoding of its command. -/
theorem sampleWordsDecode : Obligations.SampleWordsDecode :=
  ⟨decode_encode .add, decode_encode .shr, decode_encode .decb, decode_encode .split, decode_encode .cbcd,
    decode_encode .seed, decode_encode (.geniv false), decode_encode (.geniv true)⟩

/-- Settles O33: both turns are the engine's, at the state itself or with the event used up. -/
theorem stepRunsTheDecodedCommand : Obligations.StepRunsTheDecodedCommand := fun s _ hbusy hd =>
  ⟨fun hev => (step_of_nil hev).trans (engineTurn_of_decode hbusy hd),
    fun es hev => (step_of_engine hev).trans (engineTurn_of_decode (s := s.setEvents es) hbusy hd)⟩

/-- Settles O34: likewise, with a word that does not decode. -/
theorem illegalWordsCompleteWithCodeFour : Obligations.IllegalWordsCompleteWithCodeFour := fun s hbusy hlegal =>
  ⟨fun hev => (step_of_nil hev).trans (engineTurn_of_illegal hbusy hlegal),
    fun es hev => (step_of_engine hev).trans (engineTurn_of_illegal (s := s.setEvents es) hbusy hlegal)⟩

/-- Settles O35: likewise, with no command pending. -/
theorem idleEngineChangesNothing : Obligations.IdleEngineChangesNothing := fun s hidle =>
  ⟨fun hev => (step_of_nil hev).trans (engineTurn_of_idle hidle),
    fun es hev => (step_of_engine hev).trans (engineTurn_of_idle (s := s.setEvents es) hidle)⟩

/-- Settles O37: the write is accepted (`cmdWriteIsAccepted`), and the latched word decodes to its command. -/
theorem acceptedCommandRuns : Obligations.AcceptedCommandRuns := by
  intro s es i hidle hev
  refine ⟨_, cmdWriteIsAccepted s _ _ hidle hev, ?_⟩
  exact (stepRunsTheDecodedCommand _ i (by decide : (1#32).getLsbD 0 = true) (decode_encode i)).2 es rfl

/-! ## The registers at their offsets (spec/10_state.md R22) -/

/-- The register map of R22, in the order of the offsets. -/
def regOffsets : List (Nat × Reg) :=
  [(0x000, .cmd), (0x004, .status), (0x008, .ctrl), (0x00C, .bsize), (0x010, .src), (0x014, .dst), (0x018, .len),
   (0x01C, .ivaddr), (0x020, .ivlen), (0x024, .padv), (0x028, .mult), (0x02C, .outlen), (0x030, .nblk), (0x034, .opa),
   (0x038, .opb), (0x03C, .res), (0x040, .v0), (0x044, .v1), (0x048, .k0), (0x04C, .k1), (0x050, .k2), (0x054, .k3),
   (0x058, .seed), (0x05C, .prngs)]

theorem targetAt_of_mem_regOffsets :
    ∀ p ∈ regOffsets, targetAt p.1 = .register p.2 ∧ p.1 % 4 = 0 ∧ p.1 < 0x1000 := by decide

theorem shownRegisters_eq_map (s : State) : shownRegisters s = regOffsets.map fun p => (p.1, readReg s p.2) := rfl

/-- All registers but the first, CMD, and the last, PRNGS. -/
theorem writtenRegisters_eq_map (s : State) (v : Word) :
    writtenRegisters s v = regOffsets.tail.dropLast.map fun p => (p.1, writeReg s v p.2) := rfl

theorem readReg_setEvents (s : State) (es : List BusEvent) (r : Reg) : readReg (s.setEvents es) r = readReg s r := by
  cases r <;> rfl

theorem writeReg_setEvents (s : State) (es : List BusEvent) (v : Word) (r : Reg) :
    writeReg (s.setEvents es) v r = (writeReg s v r).setEvents es := by cases r <;> rfl

theorem step_of_read_register {s : State} {es : List BusEvent} {o : Nat} {r : Reg}
    (hidle : statusBusy s.status = false) (hr : (o, r) ∈ regOffsets)
    (hev : s.events = .read (s.params.base + o) 4 :: es) :
    step s = .next { s with events := es, rdata := readReg s r } := by
  obtain ⟨htarget, halign, hlt⟩ := targetAt_of_mem_regOffsets _ hr
  rw [step_of_read_offset halign (Nat.lt_add_right _ hlt) hev, htarget, hostRead_of_idle (s := s.setEvents es) hidle,
    ← readReg_setEvents s es]
  rfl

theorem step_of_write_register {s : State} {es : List BusEvent} {o : Nat} {r : Reg} {v : Word}
    (hidle : statusBusy s.status = false) (hr : (o, r) ∈ regOffsets)
    (hev : s.events = .write (s.params.base + o) 4 v :: es) : step s = .next ((writeReg s v r).setEvents es) := by
  obtain ⟨htarget, halign, hlt⟩ := targetAt_of_mem_regOffsets _ hr
  rw [step_of_write_offset halign (Nat.lt_add_right _ hlt) hev, htarget, hostWrite_of_idle (s := s.setEvents es) hidle,
    ← writeReg_setEvents s es]

/-- Settles O40: the registers shown are those of the register map as a host read shows them. -/
theorem idleReadOfRegister : Obligations.IdleReadOfRegister := by
  intro s es o v hidle hshown hev
  rw [shownRegisters_eq_map, List.mem_map] at hshown
  obtain ⟨⟨o', r⟩, hr, hov⟩ := hshown
  obtain ⟨rfl, rfl⟩ := Prod.mk.inj hov
  exact step_of_read_register hidle hr hev

/-- Settles O41: the states listed are those that a host write of each register leaves; PRNGS is the last register. -/
theorem idleWriteOfRegister : Obligations.IdleWriteOfRegister := by
  intro s es o v hidle hev
  refine ⟨fun t hwritten => ?_, fun ho => ?_⟩
  · rw [writtenRegisters_eq_map, List.mem_map] at hwritten
    obtain ⟨⟨o', r⟩, hr, hot⟩ := hwritten
    obtain ⟨rfl, rfl⟩ := Prod.mk.inj hot
    exact step_of_write_register hidle (List.mem_of_mem_tail (List.mem_of_mem_dropLast hr)) hev
  · subst ho
    have hprngs : (0x05C, Reg.prngs) ∈ regOffsets := by decide
    refine ⟨_, step_of_write_register hidle hprngs hev, rfl, fun hlcg => ?_⟩
    change restAfterWrite s v = s.prngRest
    rw [restAfterWrite, hlcg]

/-! ## Buffer words (spec/20_memory.md R60, R63, R67, R70) -/

theorem memWrite_sameOutside (a : Nat) (w : Word) (s : State) : sameOutside a 1 s (memWrite a w s) :=
  (memWrite_touches (R := (· = a)) rfl w s).sameOutside fun b hb => by omega

/-- R67: a host read event that is not refused changes nothing but the model's own fields. -/
theorem step_read_frame {s t : State} {es : List BusEvent} {addr width : Nat} (hev : s.events = .read addr width :: es)
    (h : step s = .next t) : t = { s with events := es, rdata := t.rdata, draws := t.draws } := by
  obtain ⟨target, -, rfl⟩ := busRead_eq_next ((step_of_read hev).symm.trans h)
  exact hostRead_frame target (s.setEvents es)

/-- Settles O43: offset 0x1000 + 4a reaches buffer word a, which the write replaces and the read shows. -/
theorem idleAccessOfBufferWord : Obligations.IdleAccessOfBufferWord := by
  intro s es a hidle ha
  have halign : (0x1000 + 4 * a) % 4 = 0 := by omega
  have hin : 0x1000 + 4 * a < 0x1000 + 4 * s.params.memWords := by omega
  refine ⟨fun v hev => ?_, fun hev => ⟨fun w hw => ?_, ?_⟩⟩
  · refine ⟨memWrite a v (s.setEvents es), ?_, rfl, Memory.readWord_writeWord_same .., memWrite_sameOutside a v _⟩
    rw [step_of_write_offset halign hin hev, targetAt_buffer, hostWrite_of_idle (s := s.setEvents es) hidle]
  · rw [step_of_read_offset halign hin hev, targetAt_buffer, hostRead_of_idle (s := s.setEvents es) hidle, readIdle,
      memRead_of_some (s := s.setEvents es) hw]
    rfl
  · have hstep := step_of_read_offset halign hin hev
    exact ⟨_, hstep, step_read_frame hev hstep⟩

/-- Settles O48: by `step_read_frame`. -/
theorem readsHaveNoSideEffect : Obligations.ReadsHaveNoSideEffect := fun _ _ _ _ _ hev h => step_read_frame hev h

/-- Settles O47: a read changes only the model's own fields, and a write is dropped. -/
theorem operandsAreFixedWhileBusy : Obligations.OperandsAreFixedWhileBusy := by
  rintro s t es addr width v hbusy (hev | hev) hstep
  · have hframe := step_read_frame hev hstep
    have hstatus : t.status = s.status := by rw [hframe]
    exact ⟨by rw [hstatus]; exact hframe, .inl hstatus⟩
  · obtain ⟨target, -, rfl⟩ := busWrite_eq_next ((step_of_write hev).symm.trans hstep)
    rw [hostWrite_of_busy (s := s.setEvents es) hbusy]
    exact ⟨rfl, .inr rfl⟩

/-! ## Accesses outside the interface (R60, R62) -/

theorem step_of_busTarget_error {s : State} {es : List BusEvent} {addr width : Nat} {v : Word} {r : Refusal}
    (hev : s.events = .read addr width :: es ∨ s.events = .write addr width v :: es)
    (h : busTarget s.params addr width = .error r) : step s = .refused r := by
  obtain hev | hev := hev
  · simp [step_of_read hev, busRead, h]
  · simp [step_of_write hev, busWrite, h]

/-- Settles O44: such an access has no target, and the step is refused by the name that `busTarget` gives. -/
theorem accessesOutsideTheInterfaceAreRefused : Obligations.AccessesOutsideTheInterfaceAreRefused :=
  fun _ _ _ width _ hev =>
    ⟨fun hout => step_of_busTarget_error hev (busTarget_of_outside width hout),
      fun hlo hhi hword => step_of_busTarget_error hev (busTarget_of_not_word hlo hhi hword)⟩

/-! ## Reset (spec/70_reset_and_hazards.md R230 to R232) -/

theorem readReg_resetWith (p : Params) (r : Reg) : readReg (State.resetWith p) r = 0#32 := by
  cases r with
  | status => exact (by decide : statusShown 0#32 = 0#32)
  | ctrl => exact (by decide : ctrlImplemented 0#32 = 0#32)
  | _ => rfl

theorem readReg_hostReset (s : State) (r : Reg) : readReg (hostReset s) r = 0#32 := by
  have hsame : readReg (hostReset s) r = readReg (State.resetWith s.params) r := by cases r <;> rfl
  exact hsame.trans (readReg_resetWith s.params r)

/-- What holds of every register as it reads holds of all that the block shows. -/
theorem shownRegisters_eq_zero {s : State} (h : ∀ r, readReg s r = 0#32) :
    ∀ o v, (o, v) ∈ shownRegisters s → v = 0#32 := by
  intro o v hshown
  rw [shownRegisters_eq_map, List.mem_map] at hshown
  obtain ⟨⟨o', r⟩, -, hov⟩ := hshown
  obtain ⟨rfl, rfl⟩ := Prod.mk.inj hov
  exact h r

/-- Settles O45: the state of `hostReset`, whatever the state before. -/
theorem resetClearsTheBlock : Obligations.ResetClearsTheBlock := fun _ _ hev =>
  ⟨_, step_of_reset hev, shownRegisters_eq_zero (readReg_hostReset _), rfl, rfl, rfl, fun _ => rfl, rfl, rfl⟩

theorem config_params_legal : Config.params.legal :=
  ⟨Nat.mul_mod_right 4096 Config.pBaseIndex, ⟨4, by decide, rfl⟩, rfl, by decide, by decide⟩

/-- Settles O46: the state of `State.resetWith` with the default parameters, which are legal. -/
theorem resetStateIsClear : Obligations.ResetStateIsClear :=
  ⟨shownRegisters_eq_zero (readReg_resetWith _), rfl, rfl, rfl, fun _ => rfl, config_params_legal, rfl, rfl, rfl⟩

/-! ## Serialised words (spec/20_memory.md R65) -/

theorem wordByte_toNat (w : Word) (j : Nat) : (wordByte w j).toNat = w.toNat / 2 ^ (24 - 8 * j) % 2 ^ 8 := by
  rw [wordByte, BitVec.extractLsb'_toNat, Nat.shiftRight_eq_div_pow]

/-- Settles O54: byte j is the digit of 2 ^ (24 - 8 j). -/
theorem serialisedBigEndian : Obligations.SerialisedBigEndian := by
  refine fun w => ⟨_, _, _, _, rfl, ?_⟩
  have hlt := w.isLt
  simp only [wordByte_toNat]
  omega

end Sys2Proof.Machine

namespace Sys2Proof.Machine

/-! ## The stream of GENIV (spec/44_ivgen.md R185, R188) -/

/-- The states of n steps after the first m are the last n of m + n. -/
theorem genStates_add (c : PrngChoice) (g : PrngState) (m n : Nat) :
    genStates c g (m + n) = genStates c (genStates c g m) n := by
  induction n with
  | zero => rfl
  | succ n ih => rw [← Nat.add_assoc, genStates, ih, genStates]

/-- R182: the range of a value depends on CTRL.IV_LEGACY alone. -/
theorem ivRange_congr {c c' : Word} (h : c'.getLsbD 1 = c.getLsbD 1) (w : Word) : ivRange c' w = ivRange c w := by
  unfold ivRange ctrlIvLegacy
  rw [h]

theorem genivStart_congr {s s' : State} {r : Bool} (hprng : s'.params.prng = s.params.prng)
    (hfrom : if r then s'.seed = s.seed else s'.prngs = s.prngs ∧ s'.prngRest = s.prngRest) :
    genivStart r s' = genivStart r s := by
  cases r with
  | true =>
    have hseed : s'.seed = s.seed := hfrom
    simp [genivStart, hprng, hseed]
  | false =>
    obtain ⟨hview, hrest⟩ : s'.prngs = s.prngs ∧ s'.prngRest = s.prngRest := hfrom
    simp [genivStart, State.prng, hview, hrest]

theorem geniv_fits_of_noErr {r : Bool} {s t : State} (h : exec (.geniv r) s = .next t)
    (ht : t.status.getLsbD 2 = false) : regionFits s s.dst.toNat s.len.toNat := by
  obtain ⟨d, hcheck, -⟩ := runCommand_noErr (check := genivCheck) (effect := genivEffect r) h ht
  exact (regionFits_iff_inRange ..).mpr (genivCheck_ok hcheck).1

/-- Settles O27: the start, the length and the range of the two commands agree, and so do the generator states. -/
theorem genivIsDeterministic : Obligations.GenivIsDeterministic := by
  intro s s' t t' r hprng hlen hlegacy hfrom h h' ht ht'
  have hstart := genivStart_congr hprng hfrom
  obtain rfl := next_inj ((exec_geniv_of_fits r (geniv_fits_of_noErr h ht)).symm.trans h)
  obtain rfl := next_inj ((exec_geniv_of_fits r (geniv_fits_of_noErr h' ht')).symm.trans h')
  simp only [hprng, hlen, hstart, true_and]
  intro i hi
  rw [genivLoop_readWord r s' (hlen ▸ hi), genivLoop_readWord r s hi, hprng, hstart, ivRange_congr hlegacy]

theorem genivLoop_readWord_outside (r : Bool) (s : State) {a : Nat}
    (ha : ¬ (s.dst.toNat ≤ a ∧ a < s.dst.toNat + s.len.toNat)) :
    (genivLoop r s).mem.readWord a = s.mem.readWord a :=
  (genivLoop_touches s.dst.toNat s.len.toNat (genivStart r s) s).word ha

/-- Settles O28: the second command starts from the state where the first ended (`genStates_add`), and it writes after
the first one's words. -/
theorem genivContinuesTheStream : Obligations.GenivContinuesTheStream := by
  intro s t w r dst' len' total _ hdst htotal hfit h hw
  have hfit1 : regionFits s s.dst.toNat s.len.toNat := by unfold regionFits at *; omega
  obtain rfl := next_inj ((exec_geniv_of_fits r hfit1).symm.trans h)
  obtain rfl := next_inj ((exec_geniv_of_fits r (s := { s with len := total }) hfit).symm.trans hw)
  have hstates (k : Nat) := genStates_add s.params.prng (genivStart r s) s.len.toNat k
  have hend : genStates s.params.prng (genStates s.params.prng (genivStart r s) s.len.toNat) len'.toNat =
      genStates s.params.prng (genivStart r s) total.toNat := by rw [htotal, hstates]
  refine ⟨_, exec_geniv_of_fits false ?_, congrArg PrngState.view hend, congrArg PrngState.rest hend, fun i hi => ?_⟩
  · unfold regionFits at *
    dsimp only
    omega
  · refine Eq.trans ?_ (genivLoop_readWord r { s with len := total } hi).symm
    by_cases hlt : i < s.len.toNat
    · refine (genivLoop_readWord_outside false _ (by dsimp only; omega)).trans ?_
      exact genivLoop_readWord r s hlt
    · obtain ⟨j, rfl⟩ := Nat.exists_eq_add_of_le (Nat.not_lt.mp hlt)
      rw [← Nat.add_assoc, ← hdst]
      refine (genivLoop_readWord false _ (by dsimp only; omega)).trans ?_
      exact congrArg (fun g => some (ivRange s.ctrl (nextFn s.params.prng g).1)) (hstates j).symm

end Sys2Proof.Machine

namespace Sys2Proof.Machine

/-! ## Cipher pairs and chain values by word offset (spec/43_cbc.md R161 to R164)

The statements R165 and R166 speak of word e of a sequence, while the command lemmas speak of pair h of block i. These
definitions restate the chaining by word offset. -/

/-- Pair p of a sequence, the block of one cipher call. -/
def cipherPair (c : Nat → Word) (p : Nat) : Block := ⟨c (2 * p), c (2 * p + 1)⟩

/-- The word of a block that stands at an even or an odd offset. -/
def blockWord (b : Block) (e : Nat) : Word := if e % 2 = 0 then b.v0 else b.v1

/-- The chain value for word e: the IV in the first block, the ciphertext word one block before after that (R164). -/
def chainAt (bs : Nat) (iv c : Nat → Word) (e : Nat) : Word := if e < bs then iv e else c (e - bs)

/-- Word e of what CBCD recovers from the ciphertext c (R162). -/
def plainWord (k : Key) (bs : Nat) (iv c : Nat → Word) (e : Nat) : Word :=
  blockWord (decryptBlock (cipherPair c (e / 2)) k) e ^^^ chainAt bs iv c e

/-- Word e of a message of n words, zero beyond it (R161). -/
def paddedWord (n : Nat) (m : Nat → Word) (e : Nat) : Word := if e < n then m e else 0#32

@[simp] theorem blockWord_even (b : Block) (p : Nat) : blockWord b (2 * p) = b.v0 := if_pos (by omega)

@[simp] theorem blockWord_odd (b : Block) (p : Nat) : blockWord b (2 * p + 1) = b.v1 := if_neg (by omega)

theorem blockWord_cipherPair (c : Nat → Word) (e : Nat) : blockWord (cipherPair c (e / 2)) e = c e := by
  obtain ⟨p, rfl | rfl⟩ := Nat.even_or_odd' e
  · simp [cipherPair]
  · simp [cipherPair, show (2 * p + 1) / 2 = p by omega]

theorem plainWord_even (k : Key) (bs : Nat) (iv c : Nat → Word) (p : Nat) :
    plainWord k bs iv c (2 * p) = (decryptBlock (cipherPair c p) k).v0 ^^^ chainAt bs iv c (2 * p) := by
  simp [plainWord]

theorem plainWord_odd (k : Key) (bs : Nat) (iv c : Nat → Word) (p : Nat) :
    plainWord k bs iv c (2 * p + 1) = (decryptBlock (cipherPair c p) k).v1 ^^^ chainAt bs iv c (2 * p + 1) := by
  simp [plainWord, show (2 * p + 1) / 2 = p by omega]

theorem chainWord_eq_chainAt (iv c : Nat → Word) {bs i j : Nat} (hj : j < bs) :
    chainWord iv c bs i j = chainAt bs iv c (i * bs + j) := by
  cases i with
  | zero => simp [chainWord, chainAt, hj]
  | succ i =>
    have hpos : (i + 1) * bs + j - bs = i * bs + j := by rw [Nat.succ_mul]; omega
    have hge : ¬ (i + 1) * bs + j < bs := by rw [Nat.succ_mul]; omega
    rw [chainWord, if_neg i.succ_ne_zero, Nat.add_sub_cancel, chainAt, if_neg hge, hpos]

/-- Pair j of block i of b pairs is pair i * b + j of the sequence. -/
theorem block_pair_offset (i b j : Nat) : i * (2 * b) + 2 * j = 2 * (i * b + j) := by
  rw [Nat.mul_left_comm, Nat.mul_add]

theorem chainWord_pair_even (iv c : Nat → Word) {b i j : Nat} (hj : j < b) :
    chainWord iv c (2 * b) i (2 * j) = chainAt (2 * b) iv c (2 * (i * b + j)) := by
  rw [chainWord_eq_chainAt iv c (by omega), block_pair_offset]

theorem chainWord_pair_odd (iv c : Nat → Word) {b i j : Nat} (hj : j < b) :
    chainWord iv c (2 * b) i (2 * j + 1) = chainAt (2 * b) iv c (2 * (i * b + j) + 1) := by
  rw [chainWord_eq_chainAt iv c (by omega), ← Nat.add_assoc, block_pair_offset]

/-- The pairs of a whole number of blocks. -/
theorem half_eq_blocks_mul {n b : Nat} (hb : 0 < b) (hn : n % (2 * b) = 0) : n / 2 = n / (2 * b) * b := by
  obtain ⟨q, rfl⟩ := Nat.dvd_of_mod_eq_zero hn
  rw [Nat.mul_div_cancel_left q (Nat.mul_pos Nat.two_pos hb), Nat.mul_assoc, Nat.mul_div_cancel_left _ Nat.two_pos,
    Nat.mul_comm]

theorem chainAt_congr {bs n e : Nat} {iv iv' c c' : Nat → Word} (he : e < n) (hiv : ∀ j < bs, iv' j = iv j)
    (hc : ∀ f < n, c' f = c f) : chainAt bs iv' c' e = chainAt bs iv c e := by
  unfold chainAt
  split
  · next h => exact hiv e h
  · exact hc _ (by omega)

/-- What holds of pair h of block i, for all of them, holds of every pair. -/
theorem forall_pair_of_block {n b : Nat} {P : Nat → Prop} (hP : ∀ i < n, ∀ h < b, P (i * b + h)) :
    ∀ p < n * b, P p := by
  intro p hp
  have hb : 0 < b := Nat.pos_of_ne_zero fun hb => by simp [hb] at hp
  have h := hP (p / b) (block_lt hp).1 (p % b) (Nat.mod_lt p hb)
  rwa [Nat.div_add_mod'] at h

/-! ## The words that CBCE and CBCD leave -/

theorem cbce_fits_of_noErr {s t : State} {bs : Nat} (hbs : effBS s = .ok bs) (h : exec .cbce s = .next t)
    (ht : t.status.getLsbD 2 = false) :
    s.ivlen.toNat = bs ∧ regionFits s s.src.toNat s.len.toNat ∧ regionFits s s.dst.toNat (roundup s.len.toNat bs) ∧
      regionFits s s.ivaddr.toNat bs := by
  obtain ⟨p, hcheck, -⟩ := runCommand_noErr (check := cbceCheck) (effect := cbceEffect) h ht
  obtain ⟨bs', hbs', hiv, hsrc, hdst, hiva, -⟩ := cbceCheck_ok hcheck
  obtain rfl := Except.ok.inj (hbs.symm.trans hbs')
  simp only [regionFits_iff_inRange]
  exact ⟨hiv, hsrc, hdst, hiva⟩

theorem cbcd_fits_of_noErr {s t : State} {bs : Nat} (hbs : effBS s = .ok bs) (h : exec .cbcd s = .next t)
    (ht : t.status.getLsbD 2 = false) :
    s.ivlen.toNat = bs ∧ s.len.toNat % bs = 0 ∧ regionFits s s.src.toNat s.len.toNat ∧
      regionFits s s.dst.toNat s.len.toNat ∧ regionFits s s.ivaddr.toNat bs := by
  obtain ⟨p, hcheck, -⟩ := runCommand_noErr (check := cbcdCheck) (effect := cbcdEffect) h ht
  obtain ⟨bs', hbs', hiv, hmod, hsrc, hdst, hiva, -⟩ := cbcdCheck_ok hcheck
  obtain rfl := Except.ok.inj (hbs.symm.trans hbs')
  simp only [regionFits_iff_inRange]
  exact ⟨hiv, hmod, hsrc, hdst, hiva⟩

/-- R69: the n words at SRC are c, and a command that writes its blocks from DST in order overwrites none of them before
it reads it. -/
def readsInOrder (s : State) (bs n : Nat) (c : Nat → Word) : Prop :=
  ∀ e < n, s.mem.readWord (s.src.toNat + e) = some (c e) ∧
    ¬ (s.dst.toNat ≤ s.src.toNat + e ∧ s.src.toNat + e < s.dst.toNat + e / bs * bs)

theorem readsInOrder.eq_of_readsAs {s t : State} {bs n e : Nat} {c : Nat → Word} {v : Word}
    (h : readsInOrder s bs n c) (he : e < n) (hv : readsAs s t s.dst.toNat (e / bs * bs) (s.src.toNat + e) v) :
    v = c e :=
  readsAs_of_outside hv (h e he).2 (h e he).1

/-- R161: CBCE of written words leaves ciphertext words c of which each pair is the encryption of the padded message's
pair XOR the chain value. -/
theorem exec_cbce_words {s t : State} {bs : Nat} {m iv : Nat → Word} (hbs : effBS s = .ok bs)
    (h : exec .cbce s = .next t) (ht : t.status.getLsbD 2 = false) (hm : readsInOrder s bs s.len.toNat m)
    (hiv : ∀ j < bs, s.mem.readWord (s.ivaddr.toNat + j) = some (iv j)) :
    t.outlen = BitVec.ofNat 32 (roundup s.len.toNat bs) ∧
    ∃ c : Nat → Word, (∀ f < roundup s.len.toNat bs, t.mem.readWord (s.dst.toNat + f) = some (c f)) ∧
      ∀ p < roundup s.len.toNat bs / 2,
        encryptBlock (cipherPair (fun e => paddedWord s.len.toNat m e ^^^ chainAt bs iv c e) p) (keyOperand s) =
          cipherPair c p := by
  obtain ⟨hivlen, hsrc, hdst, hiva⟩ := cbce_fits_of_noErr hbs h ht
  obtain ⟨u, m', iv', c, hexec, hframe, -, hiv', hm', hpad, hc, henc⟩ :=
    (cbceRunsOrReports.2 s).1 bs hbs hivlen hsrc hdst hiva
  obtain rfl := next_inj (hexec.symm.trans h)
  have hmeq : ∀ e, m' e = paddedWord s.len.toNat m e := by
    intro e
    unfold paddedWord
    split
    · next he => exact hm.eq_of_readsAs he (hm' e he)
    · next he => exact hpad e (Nat.not_lt.mp he)
  have hiveq : ∀ j < bs, iv' j = iv j := fun j hj => hiv' j hj _ (hiv j hj)
  refine ⟨by rw [hframe], c, hc, ?_⟩
  have hchain : ∀ e, chainAt bs iv' c e = chainAt bs iv c e := fun e =>
    chainAt_congr (Nat.lt_succ_self e) hiveq fun _ _ => rfl
  obtain ⟨heven, hpos, -⟩ := effBS_ok hbs
  obtain ⟨b, rfl⟩ := Nat.dvd_of_mod_eq_zero heven
  rw [half_eq_blocks_mul (by omega) (roundup_mod _ _)]
  refine forall_pair_of_block fun i hi j hj => ?_
  have hpair := henc i hi j (by omega)
  rw [block_pair_offset, chainWord_pair_even iv' c hj, chainWord_pair_odd iv' c hj, hchain, hchain, hmeq, hmeq] at hpair
  exact hpair

/-- R162: CBCD of written words leaves the words recovered from them. -/
theorem exec_cbcd_words {s : State} {bs : Nat} {iv c : Nat → Word} (hbs : effBS s = .ok bs)
    (hivlen : s.ivlen.toNat = bs) (hmod : s.len.toNat % bs = 0)
    (hfit : regionFits s s.src.toNat s.len.toNat ∧ regionFits s s.dst.toNat s.len.toNat ∧
      regionFits s s.ivaddr.toNat bs)
    (hc : readsInOrder s bs s.len.toNat c) (hiv : ∀ j < bs, s.mem.readWord (s.ivaddr.toNat + j) = some (iv j)) :
    ∃ t, exec .cbcd s = .next t ∧ t.status.getLsbD 2 = false ∧ t.outlen = s.len ∧
      ∀ e < s.len.toNat, t.mem.readWord (s.dst.toNat + e) = some (plainWord (keyOperand s) bs iv c e) := by
  obtain ⟨hsrc, hdst, hiva⟩ := hfit
  obtain ⟨t, iv', c', hexec, hframe, -, hiv', hc', hdec⟩ :=
    (cbcdRunsOrReports.2 s).1 bs hbs hivlen hmod hsrc hdst hiva
  refine ⟨t, hexec, by rw [hframe]; exact statusAfter_zero_noErr s, by rw [hframe], ?_⟩
  have hceq : ∀ f < s.len.toNat, c' f = c f := fun f hf => hc.eq_of_readsAs hf (hc' f hf)
  have hiveq : ∀ j < bs, iv' j = iv j := fun j hj => hiv' j hj _ (hiv j hj)
  obtain ⟨heven, hpos, -⟩ := effBS_ok hbs
  obtain ⟨b, rfl⟩ := Nat.dvd_of_mod_eq_zero heven
  have hlen2 : s.len.toNat % 2 = 0 := even_of_mod heven hmod
  have hhalf := half_eq_blocks_mul (by omega) hmod
  have hpair : ∀ p < s.len.toNat / (2 * b) * b,
      t.mem.readWord (s.dst.toNat + 2 * p) = some (plainWord (keyOperand s) (2 * b) iv c (2 * p)) ∧
      t.mem.readWord (s.dst.toNat + (2 * p + 1)) = some (plainWord (keyOperand s) (2 * b) iv c (2 * p + 1)) := by
    refine forall_pair_of_block fun i hi j hj => ?_
    have hlt : 2 * (i * b + j) + 1 < s.len.toNat := by
      have := block_end (bs := b) hi
      omega
    have hdec' := hdec i hi j (by omega)
    rw [block_pair_offset, chainWord_pair_even iv' c' hj, chainWord_pair_odd iv' c' hj, hceq _ hlt, hceq _ (by omega),
      chainAt_congr (by omega) hiveq hceq, chainAt_congr hlt hiveq hceq] at hdec'
    rw [plainWord_even, plainWord_odd]
    exact hdec'
  intro e he
  obtain ⟨p, rfl | rfl⟩ := Nat.even_or_odd' e
  · exact (hpair p (by omega)).1
  · exact (hpair p (by omega)).2

/-! ## Round trip (R165) -/

/-- R126: when each pair of c encrypts a pair of x XOR the chain value, what is recovered from c is x. -/
theorem plainWord_of_encrypted {k : Key} {bs e : Nat} {iv c x : Nat → Word}
    (h : encryptBlock (cipherPair (fun e => x e ^^^ chainAt bs iv c e) (e / 2)) k = cipherPair c (e / 2)) :
    plainWord k bs iv c e = x e := by
  rw [plainWord, ← h, decryptBlock_encryptBlock, blockWord_cipherPair]
  exact xor32_cancel_right (x e) (chainAt bs iv c e)

theorem regionFits_congr {s u : State} (h : u.params = s.params) (base n : Nat) :
    regionFits u base n ↔ regionFits s base n := by
  unfold regionFits
  rw [h]

/-- Settles O22: CBCD finds the ciphertext that CBCE left, and recovers the padded message from it. -/
theorem cbcRoundTrip : Obligations.CbcRoundTrip := by
  intro s t u bs m iv hlegal hbs h ht hm hiv hk0 hk1 hk2 hk3 hbsize hctrl hivaddr hivlen hparams hsrc hlen huiv hu hdst
  obtain ⟨hivbs, -, hsdst, hsiva⟩ := cbce_fits_of_noErr hbs h ht
  obtain ⟨hout, c, hc, henc⟩ := exec_cbce_words hbs h ht hm hiv
  have houtlen : t.outlen.toNat = roundup s.len.toNat bs := hout ▸ toNat_ofNat_of_fits hlegal hsdst le_rfl
  have hulen : u.len.toNat = roundup s.len.toNat bs := hlen ▸ houtlen
  have hkey : keyOperand u = keyOperand s := by simp [keyOperand, hk0, hk1, hk2, hk3]
  have hfit : regionFits u u.src.toNat u.len.toNat ∧ regionFits u u.dst.toNat u.len.toNat ∧
      regionFits u u.ivaddr.toNat bs := by
    refine ⟨?_, hlen ▸ hdst, ?_⟩
    · rw [hulen, hsrc, regionFits_congr hparams]
      exact hsdst
    · rw [hivaddr, regionFits_congr hparams]
      exact hsiva
  have hread : readsInOrder u bs u.len.toNat c := by
    intro f hf
    rw [hlen] at hf
    obtain ⟨hword, hover⟩ := hu f hf
    exact ⟨hword.trans (hc f (houtlen ▸ hf)), hover⟩
  obtain ⟨v, hv, hverr, hvout, hvword⟩ := exec_cbcd_words ((effBS_congr hbsize hctrl hparams).trans hbs)
    (hivlen ▸ hivbs) (hulen ▸ roundup_mod _ _) hfit hread huiv
  have hplain : ∀ e < roundup s.len.toNat bs,
      v.mem.readWord (u.dst.toNat + e) = some (paddedWord s.len.toNat m e) := by
    intro e he
    have heven : roundup s.len.toNat bs % 2 = 0 := even_of_mod (effBS_ok hbs).1 (roundup_mod _ _)
    rw [hvword e (hulen ▸ he), hkey, plainWord_of_encrypted (henc (e / 2) (by omega))]
  refine ⟨v, hv, hverr, hvout.trans hlen, houtlen, fun e he => ?_, fun e he he' => ?_⟩
  · rw [hplain e (he.trans_le (le_roundup _ (effBS_pos hbs))), paddedWord, if_pos he]
  · rw [hplain e (houtlen ▸ he'), paddedWord, if_neg (Nat.not_lt.mpr he)]

/-! ## Error propagation (R166) -/

section Flip

variable {k : Key} {bs f : Nat} {iv c : Nat → Word} {x : Word}

/-- A changed word is in no cipher pair but its own ... -/
theorem cipherPair_update_of_ne {p : Nat} (hp : p ≠ f / 2) : cipherPair (Function.update c f x) p = cipherPair c p := by
  rw [cipherPair, cipherPair, Function.update_of_ne (by omega), Function.update_of_ne (by omega)]

/-- ... and is the chain value one block later only. -/
theorem chainAt_update_of_ne {e : Nat} (he : e ≠ f + bs) :
    chainAt bs iv (Function.update c f x) e = chainAt bs iv c e := by
  unfold chainAt
  split
  · rfl
  · exact Function.update_of_ne (by omega) _ _

theorem chainAt_add (d : Nat → Word) : chainAt bs iv d (f + bs) = d f := by
  rw [chainAt, if_neg (by omega), Nat.add_sub_cancel]

theorem plainWord_update_of_ne {e : Nat} (hpair : e / 2 ≠ f / 2) (he : e ≠ f + bs) :
    plainWord k bs iv (Function.update c f x) e = plainWord k bs iv c e := by
  rw [plainWord, plainWord, cipherPair_update_of_ne hpair, chainAt_update_of_ne he]

theorem plainWord_update_next_block (hbs : 2 ≤ bs) {y : Word} (hx : x = c f ^^^ y) :
    plainWord k bs iv (Function.update c f x) (f + bs) = plainWord k bs iv c (f + bs) ^^^ y := by
  subst hx
  rw [plainWord, plainWord, cipherPair_update_of_ne (by omega), chainAt_add, chainAt_add, Function.update_self,
    BitVec.xor_assoc]

theorem block_eq_of_words {a b : Block} (h0 : a.v0 = b.v0) (h1 : a.v1 = b.v1) : a = b := by
  cases a
  cases b
  simp_all

theorem decryptBlock_injective (k : Key) : Function.Injective (decryptBlock · k) :=
  Function.LeftInverse.injective (g := (encryptBlock · k)) fun b => encryptBlock_decryptBlock b k

/-- Decryption is injective, so a changed word changes what is recovered from its pair. -/
theorem plainWord_update_pair_ne (hbs : 2 ≤ bs) (heven : bs % 2 = 0) (hx : x ≠ c f) :
    ¬ (plainWord k bs iv (Function.update c f x) (2 * (f / 2)) = plainWord k bs iv c (2 * (f / 2)) ∧
      plainWord k bs iv (Function.update c f x) (2 * (f / 2) + 1) = plainWord k bs iv c (2 * (f / 2) + 1)) := by
  rintro ⟨h0, h1⟩
  rw [plainWord_even, plainWord_even, chainAt_update_of_ne (by omega), BitVec.xor_left_inj] at h0
  rw [plainWord_odd, plainWord_odd, chainAt_update_of_ne (by omega), BitVec.xor_left_inj] at h1
  have hblock := decryptBlock_injective k (block_eq_of_words h0 h1)
  have hpair := congrArg (blockWord · f) hblock
  simp only [blockWord_cipherPair, Function.update_self] at hpair
  exact hx hpair

end Flip

/-- Flipping a bit changes a word. -/
theorem xor_bit_ne (w : Word) {b : Nat} (hb : b < 32) : w ^^^ (1#32 <<< b) ≠ w := by
  intro h
  have hbit := congrArg (·.getLsbD b) h
  simp [hb] at hbit

/-- The words of the memory from word address a on, 0 where none was written. -/
def wordsFrom (m : Memory) (a e : Nat) : Word := (m.readWord (a + e)).getD 0

theorem readWord_eq_wordsFrom {m : Memory} {a e : Nat} (h : (m.readWord (a + e)).isSome = true) :
    m.readWord (a + e) = some (wordsFrom m a e) := by
  obtain ⟨w, hw⟩ := Option.isSome_iff_exists.mp h
  rw [wordsFrom, hw]
  rfl

/-- Writing word f of the source changes word f of what is read, and no other. -/
theorem readsInOrder.writeWord {s : State} {bs n : Nat} {c : Nat → Word} (h : readsInOrder s bs n c) (f : Nat)
    (x : Word) : readsInOrder { s with mem := s.mem.writeWord (s.src.toNat + f) x } bs n (Function.update c f x) := by
  refine fun e he => ⟨?_, (h e he).2⟩
  dsimp only
  by_cases hef : e = f
  · rw [hef, Memory.readWord_writeWord_same, Function.update_self]
  · rw [Memory.readWord_writeWord_ne _ _ (by omega), Function.update_of_ne hef, (h e he).1]

/-- Settles O23: both runs recover words by `plainWord`, the second from the ciphertext with one word changed. -/
theorem cbcErrorPropagation : Obligations.CbcErrorPropagation := by
  intro s t t' bs f b w hbs hf hb hsrc hiv hw h ht h'
  obtain ⟨heven, htwo, -⟩ := effBS_ok hbs
  obtain ⟨hivlen, hmod, hfit⟩ := cbcd_fits_of_noErr hbs h ht
  have hread : readsInOrder s bs s.len.toNat (wordsFrom s.mem s.src.toNat) := fun e he =>
    ⟨readWord_eq_wordsFrom (hsrc e he).1, (hsrc e he).2⟩
  have hread' := hread.writeWord f (w ^^^ (1#32 <<< b))
  have hivw : ∀ j < bs, s.mem.readWord (s.ivaddr.toNat + j) = some (wordsFrom s.mem s.ivaddr.toNat j) := fun j hj =>
    readWord_eq_wordsFrom (hiv j hj).1
  have hivw' : ∀ j < bs, (s.mem.writeWord (s.src.toNat + f) (w ^^^ (1#32 <<< b))).readWord (s.ivaddr.toNat + j) =
      some (wordsFrom s.mem s.ivaddr.toNat j) := fun j hj =>
    (Memory.readWord_writeWord_ne _ _ (hiv j hj).2).trans (hivw j hj)
  obtain ⟨u, hu, -, -, hword⟩ := exec_cbcd_words hbs hivlen hmod hfit hread hivw
  obtain ⟨u', hu', -, -, hword'⟩ :=
    exec_cbcd_words (s := { s with mem := s.mem.writeWord _ _ }) hbs hivlen hmod hfit hread' hivw'
  obtain rfl := next_inj (hu.symm.trans h)
  obtain rfl := next_inj (hu'.symm.trans h')
  have hwf : wordsFrom s.mem s.src.toNat f = w := Option.some.inj ((hread f hf).1.symm.trans hw)
  have hkey : keyOperand { s with mem := s.mem.writeWord (s.src.toNat + f) (w ^^^ (1#32 <<< b)) } = keyOperand s := rfl
  have hlen : s.len.toNat % 2 = 0 := even_of_mod heven hmod
  dsimp only at hword'
  rw [hkey] at hword'
  refine ⟨fun heq => ?_, fun hlt => ?_, fun e he hpair hne => ?_⟩
  · rw [Nat.mul_comm, Nat.add_assoc, hword _ (by omega), hword _ (by omega), hword' _ (by omega),
      hword' _ (by omega)] at heq
    simp only [Prod.mk.injEq, Option.some.injEq] at heq
    exact plainWord_update_pair_ne htwo heven (hwf.symm ▸ xor_bit_ne w hb) heq
  · rw [hword _ hlt, hword' _ hlt, plainWord_update_next_block htwo (by rw [hwf])]
    rfl
  · rw [hword e he, hword' e he, plainWord_update_of_ne hpair hne]

end Sys2Proof.Machine
